-- ==== Sys2Proof/Word.lean ====
section
/-! DEFINITION. The two widths of the block: a register and a program cell. -/

namespace Sys2Proof

/-- A register value: an s64 in its two's complement pattern, bit 0 the least significant (R8, R14, R15).
`BitVec.toInt` is the integer the spec's arithmetic is stated on. -/
abbrev Word := BitVec 64

/-- A u3 value: a cell of a validated program, an opcode, an operand, an output digit (R6, R8, R26, R47). -/
abbrev Cell := BitVec 3

end Sys2Proof
end

