-- ==== Sys2Proof/Config.lean ====
section
/-! DEFINITION. What an implementation of the block fixes.

The spec gives every other parameter of R6 a value, and each of those stands in a type or a definition:
REG_COUNT (`Reg`), REG_WIDTH (`Word`), CELL_WIDTH and OUT_DIGIT_WIDTH (`Cell`), OPCODE_COUNT (`Instr`),
INSN_CELLS (`Machine.retire`, `encode`), N (the length of `State.program`). -/

namespace Sys2Proof

/-- MAX_PROGRAM_LEN, the OPEN parameter of R6 (decision D5): "a hardware realisation states its bound".
It has no body, so nothing can be proved of its value. The step takes a program of any length. A claim meant
for one realisation takes `Safety.FitsRealisation` as a premise. DESIGN CHOICE, log 9 (unsafe). -/
opaque Config.maxProgramLen : Nat

end Sys2Proof
end

