-- ==== Sys2Proof/Syntax.lean ====
section
/-! DEFINITION. The instruction set as syntax: registers, operand modes, operands, the eight instructions. -/

namespace Sys2Proof

/-- The register file's names (R14). They have no numbers and no aliases. -/
inductive Reg where
  | a
  | b
  | c
deriving DecidableEq, Repr

/-- A combo operand (R51): 0 to 3 stand for themselves, 4, 5 and 6 for a register, 7 is reserved (R52). -/
inductive Combo where
  | lit (v : BitVec 2)
  | reg (r : Reg)
  | reserved
deriving DecidableEq, Repr

/-- The three operand modes, fixed by the opcode (R49). -/
inductive OperandMode where
  | literal
  | combo
  | ignored
deriving DecidableEq, Repr

/-- The eight instructions (R54), in the order of the opcodes 0 to 7. A literal or ignored operand is the cell
itself, and BXC keeps its ignored cell so that no bit of an encoding is dropped (R53). -/
inductive Instr where
  | adv (x : Combo)
  | bxl (x : Cell)
  | bst (x : Combo)
  | jnz (x : Cell)
  | bxc (x : Cell)
  | out (x : Combo)
  | bdv (x : Combo)
  | cdv (x : Combo)
deriving DecidableEq, Repr

/-- The mode the opcode gives the operand (R49). -/
def Instr.mode : Instr → OperandMode
  | .adv _ => .combo
  | .bxl _ => .literal
  | .bst _ => .combo
  | .jnz _ => .literal
  | .bxc _ => .ignored
  | .out _ => .combo
  | .bdv _ => .combo
  | .cdv _ => .combo

end Sys2Proof
end

