-- ==== Sys2Proof/WellFormed.lean ====
section
/-! DEFINITION. Which instructions a valid program may hold. -/

namespace Sys2Proof

/-- Operand 7 in combo mode "is reserved and must never be produced by a valid program" (R52). -/
def Combo.wellFormed : Combo → Bool
  | .lit _ => true
  | .reg _ => true
  | .reserved => false

/-- An instruction a valid program may hold: one that is not a reserved encoding (R52, R55). Every term of `Instr`
has an encoding, decodes and executes; one that is not well formed raises InvalidComboOperand when it executes. -/
def Instr.wellFormed : Instr → Bool
  | .adv x => x.wellFormed
  | .bxl _ => true
  | .bst x => x.wellFormed
  | .jnz _ => true
  | .bxc _ => true
  | .out x => x.wellFormed
  | .bdv x => x.wellFormed
  | .cdv x => x.wellFormed

end Sys2Proof
end

