-- ==== Sys2Proof/Decode.lean ====
section
/-! DEFINITION. The decoder, total on any list of integers and rejecting by name, and the encoder.

A program is a sequence of integers as the host gave it (R27), and a cell is one that lies in 0 to 7 (R30, R56).
An instruction is two consecutive cells, the opcode and then the operand (R47). -/

namespace Sys2Proof

/-- Why a sequence of integers starts with no instruction. -/
inductive DecodeError where
  /-- There is no opcode cell. -/
  | noOpcodeCell
  /-- There is no operand cell (R64, R93). -/
  | noOperandCell
  /-- The opcode cell holds an integer outside 0 to 7, which is not an encoding (R56). -/
  | opcodeOutOfRange (v : Int)
  /-- The operand cell holds an integer outside 0 to 7, which is not an encoding (R56). -/
  | operandOutOfRange (v : Int)
deriving DecidableEq, Repr

/-- A program integer as a cell: exactly 0 to 7 are cells (R30, R56). -/
def cellOfInt (v : Int) : Option Cell :=
  if 0 ≤ v ∧ v ≤ 7 then some (BitVec.ofInt 3 v) else none

/-- A cell as the program integer it is stored as. -/
def intOfCell (x : Cell) : Int := (x.toNat : Int)

/-- The combo operand of an operand cell (the table of R51). -/
def comboOfCell (x : Cell) : Combo :=
  match x.toFin with
  | 0 => .lit 0
  | 1 => .lit 1
  | 2 => .lit 2
  | 3 => .lit 3
  | 4 => .reg .a
  | 5 => .reg .b
  | 6 => .reg .c
  | 7 => .reserved

/-- The instruction of an opcode cell and an operand cell: one arm for each opcode and no default arm (R54, R65). -/
def decodePair (op x : Cell) : Instr :=
  match op.toFin with
  | 0 => .adv (comboOfCell x)
  | 1 => .bxl x
  | 2 => .bst (comboOfCell x)
  | 3 => .jnz x
  | 4 => .bxc x
  | 5 => .out (comboOfCell x)
  | 6 => .bdv (comboOfCell x)
  | 7 => .cdv (comboOfCell x)

/-- The instruction at the front of a sequence of program integers. It takes two cells, always (R57). -/
def decode : List Int → Except DecodeError Instr
  | [] => .error .noOpcodeCell
  | [_] => .error .noOperandCell
  | op :: x :: _ =>
    match cellOfInt op with
    | none => .error (.opcodeOutOfRange op)
    | some o =>
      match cellOfInt x with
      | none => .error (.operandOutOfRange x)
      | some y => .ok (decodePair o y)

/-- The operand cell of a combo operand (the table of R51, read from right to left). -/
def Combo.cell : Combo → Cell
  | .lit v => v.setWidth 3
  | .reg .a => 4
  | .reg .b => 5
  | .reg .c => 6
  | .reserved => 7

/-- The opcode cell of an instruction (the opcode column of R54). -/
def Instr.opcodeCell : Instr → Cell
  | .adv _ => 0
  | .bxl _ => 1
  | .bst _ => 2
  | .jnz _ => 3
  | .bxc _ => 4
  | .out _ => 5
  | .bdv _ => 6
  | .cdv _ => 7

/-- The operand cell of an instruction (R47). -/
def Instr.operandCell : Instr → Cell
  | .adv x => x.cell
  | .bxl x => x
  | .bst x => x.cell
  | .jnz x => x
  | .bxc x => x
  | .out x => x.cell
  | .bdv x => x.cell
  | .cdv x => x.cell

/-- The two program cells of an instruction, in the order they are stored (R34, R47). -/
def encode (i : Instr) : List Int :=
  [intOfCell i.opcodeCell, intOfCell i.operandCell]

/-- The 6-bit view of opcode_table.json, w = opcode * 8 + operand (R48, decision D19). -/
def encodeTableWord (i : Instr) : Nat :=
  i.opcodeCell.toNat * 8 + i.operandCell.toNat

/-- The opcode cell of a table word, w[5:3] (R48). A word with a bit above bit 5 gives an integer above 7, which the
decoder refuses (R56). -/
def opcodeField (nbits w : Nat) : Int := ((w % 2 ^ nbits / 8 : Nat) : Int)

/-- The operand cell of a table word, w[2:0] (R48). -/
def operandField (nbits w : Nat) : Int := ((w % 2 ^ nbits % 8 : Nat) : Int)

/-- The instruction the decoder reads from a word of opcode_table.json. -/
def decodeTableWord (nbits w : Nat) : Option Instr :=
  match decode [opcodeField nbits w, operandField nbits w] with
  | .ok i => some i
  | .error _ => none

end Sys2Proof
end

