-- ==== Sys2Proof/Machine/State.lean ====
section
/-! DEFINITION. The whole state of the block (R13), the reasons a step can stop, and the state after reset. -/

namespace Sys2Proof.Machine

/-- The run state (R23). FAULTED is the spec's own third state (decision D16). -/
inductive Status where
  | running
  | halted
  | faulted
deriving DecidableEq, Repr

/-- The values of FAULT_CODE (R24, R89). -/
inductive FaultCode where
  | noFault
  | malformedProgram
  | invalidComboOperand
  | arithmeticAnomaly
  | operandFetchOutOfRange
deriving DecidableEq, Repr

/-- Program memory: cell i is the i-th element, and N is the length (R27, R30). The cells are the integers that PROG
gave, so that a malformed PROG is held as it is (R28, R90). Equal memories are equal lists. Log 5. -/
abbrev Memory := List Int

/-- Everything the spec gives the machine (R13). -/
structure State where
  /-- Register A (R14). -/
  a : Word
  /-- Register B (R14). -/
  b : Word
  /-- Register C (R14). -/
  c : Word
  /-- The instruction pointer, an index of cells that never wraps (R20, R21). -/
  ip : Nat
  /-- STATUS (R23). -/
  status : Status
  /-- FAULT_CODE (R24). -/
  faultCode : FaultCode
  /-- FAULT_IP (R24). -/
  faultIp : Option Nat
  /-- FAULT_OPCODE (R24). -/
  faultOpcode : Option Cell
  /-- FAULT_OPERAND (R24). -/
  faultOperand : Option Cell
  /-- Output, the first emitted digit first (R26). -/
  output : List Cell
  /-- The Program (R27). -/
  program : Memory
deriving DecidableEq, Repr

/-- Why a step answers no next state. The four faults of R89 are not here: entering FAULTED is a next state (R95). -/
inductive Fault where
  /-- Raised by `step` in a HALTED state: no cycle runs from it (R23, R61). Safe: the machine stands still there, and
  only START leaves it. DEDUCED, log 4. -/
  | noCycleWhenHalted
  /-- Raised by `step` in a FAULTED state: no cycle runs from it (R23, R61, R96). Safe, for the same reason. DEDUCED,
  log 4. -/
  | noCycleWhenFaulted
deriving DecidableEq, Repr

/-- Why a step gives its input no meaning. -/
inductive Refusal where
  /-- Raised by an arm of `exec` whose instruction has no meaning yet. No arm raises it. Safe. -/
  | notModelled (mnemonic : String)
  /-- Raised by the fetch of a RUNNING cycle that reads a cell outside 0 to 7, which is not an encoding (R56). START
  never leaves such a program RUNNING (R90), so no run reaches it. Safe. DESIGN CHOICE, log 6. -/
  | notAnEncoding (e : DecodeError)
deriving DecidableEq, Repr

/-- The machine right after reset: START (R107) with nothing loaded. The empty program is malformed (R90), so STATUS
is FAULTED with code 1 until a START supplies a program, as in vector V-CYC-1. The three registers hold the INIT values,
and 0 is the model's choice for them: DESIGN CHOICE, log 2 (unsafe). The empty PROG: DESIGN CHOICE, log 1 (unsafe). -/
def State.reset : State where
  a := 0
  b := 0
  c := 0
  ip := 0
  status := .faulted
  faultCode := .malformedProgram
  faultIp := none
  faultOpcode := none
  faultOperand := none
  output := []
  program := []

end Sys2Proof.Machine
end

