-- ==== Sys2Proof/Machine/Ops.lean ====
section
/-! DEFINITION. The named operations every instruction is written from: registers, program memory, Output, the control
result, and entering a fault. Nothing returns from a fault but START (R97), which stands in Machine/Start.lean. -/

namespace Sys2Proof.Machine

/-- `x[r]` (R9, R14). -/
def readReg (s : State) : Reg → Word
  | .a => s.a
  | .b => s.b
  | .c => s.c

/-- `x[r] <- v` (R9, R14). -/
def writeReg (r : Reg) (v : Word) (s : State) : State :=
  match r with
  | .a => { s with a := v }
  | .b => { s with b := v }
  | .c => { s with c := v }

/-- Every cell holds a u3 value (R30). -/
def Memory.wf (m : Memory) : Bool := m.all fun v => decide (0 ≤ v ∧ v ≤ 7)

/-- `MemRead(i, 1)` (R31): the integer in cell i, for i < N, and nothing from N on. -/
def memRead (m : Memory) (i : Nat) : Option Int := m[i]?

/-- `Emit(d)` (R33): Output grows by d at its end. -/
def emit (d : Cell) (s : State) : State := { s with output := s.output ++ [d] }

/-- The control result of an instruction (R68). -/
inductive Control where
  | advance
  | jumpTo (t : Nat)
deriving DecidableEq, Repr

/-- The instruction pointer after an instruction that completed (R69). -/
def retire (ctl : Control) (s : State) : State :=
  match ctl with
  | .advance => { s with ip := s.ip + 2 }
  | .jumpTo t => { s with ip := t }

/-- `raise Fault(code, info)` (R95): STATUS is FAULTED, the record holds the code, the ip of this cycle and the cells
that were fetched, and nothing else changes. -/
def raise (code : FaultCode) (op x : Option Cell) (s : State) : State :=
  { s with
    status := .faulted
    faultCode := code
    faultIp := some s.ip
    faultOpcode := op
    faultOperand := x }

/-- A fault of the executing instruction `i`, whose two cells were both fetched (R91, R92). -/
def raiseIn (i : Instr) (code : FaultCode) (s : State) : State :=
  raise code (some i.opcodeCell) (some i.operandCell) s

/-- A cycle that reached the end of the program: STATUS is HALTED and nothing else changes (R63). -/
def halt (s : State) : State := { s with status := .halted }

end Sys2Proof.Machine
end

