-- ==== Sys2Proof/Machine/Flags.lean ====
section
/-! DEFINITION. The tests an instruction makes on a register value. The block has no flags and no condition codes
(R22), so no test is ever stored. -/

namespace Sys2Proof.Machine

/-- JNZ's condition on A (R22, R85). A negative value is non-zero. -/
def isNonZero (v : Word) : Bool := v != 0

/-- The sign test of a division exponent (R78, R94). -/
def isNegative (v : Word) : Bool := decide (v.toInt < 0)

end Sys2Proof.Machine
end

