-- ==== Sys2Proof/Machine/Arith.lean ====
section
/-! DEFINITION. The arithmetic the instructions share: mod 8, exclusive or, and division by a power of two. -/

namespace Sys2Proof.Machine

/-- `mod8(v)`: bits 2 to 0 of the two's complement pattern (R70, decision D10). -/
def mod8 (v : Word) : Cell := v.setWidth 3

/-- `zext_64` of a u3 value (R9). -/
def zext64 (x : Cell) : Word := x.setWidth 64

/-- `a XOR b` on the two's complement patterns (R71, decision D11). -/
def xorWords (a b : Word) : Word := a ^^^ b

/-- `trunc_div(a, d)` for d > 0: truncation toward zero, exact over the integers (R9, R77). -/
def truncDiv (a : Int) (d : Nat) : Int := a.tdiv (d : Int)

/-- `DivPow2(a, e)` (R78): none where the exponent is negative (decision D13), else `trunc_div(a, 2^e)`.
From e = 64 on the exact quotient is 0 (R78, decision D12), and it is written so there because 2^e has no size a machine
could evaluate; the exponent is never reduced modulo a width. -/
def divPow2 (a e : Word) : Option Word :=
  if isNegative e then none
  else if 64 ≤ e.toNat then some 0
  else some (BitVec.ofInt 64 (truncDiv a.toInt (2 ^ e.toNat)))

end Sys2Proof.Machine
end

