-- ==== Sys2Proof/Machine/Operands.lean ====
section
/-! DEFINITION. The operand resolver (R66), and what an instruction in combo mode does with it (R67). -/

namespace Sys2Proof.Machine

/-- The three outcomes of executing an instruction in a state. -/
abbrev Result := Host.Outcome State Fault Refusal

/-- `literal(x)`: the cell itself, whatever the registers hold (R50). -/
def literal (x : Cell) : Word := zext64 x

/-- `combo(x)` (R51, R66): none for the reserved operand, whose resolution is a fault (R52). -/
def combo (x : Combo) (s : State) : Option Word :=
  match x with
  | .lit v => some (v.setWidth 64)
  | .reg r => some (readReg s r)
  | .reserved => none

/-- An instruction `i` in combo mode: resolution comes first, and its fault leaves everything as it was (R67, R91);
then `effect` runs on the resolved value. -/
def withCombo (i : Instr) (x : Combo) (s : State) (effect : Word → State) : Result :=
  match combo x s with
  | none => .next (raiseIn i .invalidComboOperand s)
  | some v => .next (effect v)

end Sys2Proof.Machine
end

