-- ==== Sys2Proof/Machine/Bitwise.lean ====
section
/-! DEFINITION. BXL, BST and BXC (42_bitwise.md): the instructions that write B without dividing. -/

namespace Sys2Proof.Machine

/-- BXL (R82). -/
def execBxl (x : Cell) (s : State) : Result :=
  .next (retire .advance (writeReg .b (xorWords s.b (literal x)) s))

/-- BST (R83). -/
def execBst (x : Combo) (s : State) : Result :=
  withCombo (.bst x) x s fun v => retire .advance (writeReg .b (zext64 (mod8 v)) s)

/-- BXC (R84): the operand cell is fetched and ignored, 7 among them (R53). -/
def execBxc (_x : Cell) (s : State) : Result :=
  .next (retire .advance (writeReg .b (xorWords s.b s.c) s))

end Sys2Proof.Machine
end

