-- ==== Sys2Proof/Machine/Division.lean ====
section
/-! DEFINITION. ADV, BDV and CDV (41_division.md): A divided by a power of two, into A, B or C. -/

namespace Sys2Proof.Machine

/-- The pseudocode that R79, R80 and R81 share: the dividend is A, `dst` takes the quotient, and a negative exponent is
an ArithmeticAnomaly (R78, R92). -/
def divideInto (dst : Reg) (i : Instr) (x : Combo) (s : State) : Result :=
  withCombo i x s fun e =>
    match divPow2 s.a e with
    | none => raiseIn i .arithmeticAnomaly s
    | some q => retire .advance (writeReg dst q s)

/-- ADV (R79). -/
def execAdv (x : Combo) (s : State) : Result := divideInto .a (.adv x) x s

/-- BDV (R80). -/
def execBdv (x : Combo) (s : State) : Result := divideInto .b (.bdv x) x s

/-- CDV (R81). -/
def execCdv (x : Combo) (s : State) : Result := divideInto .c (.cdv x) x s

end Sys2Proof.Machine
end

