-- ==== Sys2Proof/Machine/Jump.lean ====
section
/-! DEFINITION. JNZ (43_jump.md), the only control transfer (R86). -/

namespace Sys2Proof.Machine

/-- JNZ (R85): the target is the literal operand, absolute, with no parity or range check (decision D7). -/
def execJnz (x : Cell) (s : State) : Result :=
  .next (if isNonZero s.a then retire (.jumpTo (literal x).toNat) s else retire .advance s)

end Sys2Proof.Machine
end

