-- ==== Sys2Proof/Machine/Output.lean ====
section
/-! DEFINITION. OUT (44_output.md). -/

namespace Sys2Proof.Machine

/-- OUT (R87). -/
def execOut (x : Combo) (s : State) : Result :=
  withCombo (.out x) x s fun v => retire .advance (emit (mod8 v) s)

end Sys2Proof.Machine
end

