-- ==== Sys2Proof/Machine/Dispatch.lean ====
section
/-! DEFINITION. `Execute(op, x)` (R65): one arm for each instruction. -/

namespace Sys2Proof.Machine

def exec (i : Instr) (s : State) : Host.Outcome State Fault Refusal :=
  match i with
  | .adv x => Sys2Proof.Machine.execAdv x s
  | .bxl x => Sys2Proof.Machine.execBxl x s
  | .bst x => Sys2Proof.Machine.execBst x s
  | .jnz x => Sys2Proof.Machine.execJnz x s
  | .bxc x => Sys2Proof.Machine.execBxc x s
  | .out x => Sys2Proof.Machine.execOut x s
  | .bdv x => Sys2Proof.Machine.execBdv x s
  | .cdv x => Sys2Proof.Machine.execCdv x s

end Sys2Proof.Machine
end

