-- ==== Sys2Proof/Machine/Cycle.lean ====
section
/-! DEFINITION. One cycle (40_cycle.md): the halt test, the fetch, the decoding and the execution. -/

namespace Sys2Proof.Machine

/-- What the start of a cycle finds at ip (R63, R64). -/
inductive Fetched where
  /-- ip ≥ N: no cell is read (R63). -/
  | pastEnd
  /-- ip = N - 1: the opcode cell is there and the operand cell is not (R64, R93). -/
  | noOperand (op : Int)
  /-- Both cells, at ip and ip + 1, whatever the parity of ip (R35, R58). -/
  | pair (op x : Int)
deriving DecidableEq, Repr

/-- The fetch (R64). `memRead` answers none exactly from N on (R31), which makes the halt test and the operand guard. -/
def fetch (s : State) : Fetched :=
  match memRead s.program s.ip with
  | none => .pastEnd
  | some op =>
    match memRead s.program (s.ip + 1) with
    | none => .noOperand op
    | some x => .pair op x

/-- `Cycle()` of R62, which is performed in a RUNNING state only. -/
def runningCycle (s : State) : Result :=
  match fetch s with
  | .pastEnd => .next (halt s)
  | .noOperand op =>
    match cellOfInt op with
    | some o => .next (raise .operandFetchOutOfRange (some o) none s)
    | none => .refused (.notAnEncoding (.opcodeOutOfRange op))
  | .pair op x =>
    match decode [op, x] with
    | .ok i => exec i s
    | .error e => .refused (.notAnEncoding e)

/-- One cycle where the run state has one: "No cycle runs from HALTED or FAULTED" (R61). -/
def cycle (s : State) : Result :=
  match s.status with
  | .running => runningCycle s
  | .halted => .fault .noCycleWhenHalted
  | .faulted => .fault .noCycleWhenFaulted

/-- The instruction that the next cycle executes, if it executes one. -/
def nextInstr (s : State) : Option Instr :=
  match s.status with
  | .running =>
    match fetch s with
    | .pastEnd => none
    | .noOperand _ => none
    | .pair op x =>
      match decode [op, x] with
      | .ok i => some i
      | .error _ => none
  | .halted => none
  | .faulted => none

/-- A program cell written from outside: cells that were missing before it are 0. Log 3. -/
def putCell : Memory → Nat → Int → Memory
  | [], 0, v => [v]
  | _ :: t, 0, v => v :: t
  | [], k + 1, v => 0 :: putCell [] k v
  | h :: t, k + 1, v => h :: putCell t k v

/-- A program of odd length with one more cell, 0. Log 3. -/
def padEven (m : Memory) : Memory := if m.length % 2 = 0 then m else m ++ [0]

/-- A state in which the next cycle executes the pair (op, x): the pair stands at ip, and the run state is that of a
START with a valid program. It stands for a load from outside the machine. Log 3. -/
def placePair (op x : Int) (s : State) : State :=
  { s with
    program := padEven (putCell (putCell s.program s.ip op) (s.ip + 1) x)
    status := .running
    faultCode := .noFault
    faultIp := none
    faultOpcode := none
    faultOperand := none }

end Sys2Proof.Machine
end

