-- ==== Sys2Proof/Machine/Step.lean ====
section
/-! DEFINITION. The step of the machine, one cycle of 40_cycle.md, and the host's way to place one instruction. -/

namespace Sys2Proof.Machine

/-- One step is one cycle (R62, R114). -/
def step (s : State) : Host.Outcome State Fault Refusal := cycle s

/-- `s` with the instruction of a table word where the next cycle fetches it (log 3). The two cells are the opcode
w[5:3] and the operand w[2:0] of R48. -/
def State.withFetchWord (s : State) (nbits w : Nat) : State :=
  placePair (opcodeField nbits w) (operandField nbits w) s

end Sys2Proof.Machine
end

