-- ==== Sys2Proof/Machine/Start.lean ====
section
/-! DEFINITION. START, the block's only reset (70_reset_and_hazards.md), and the host's commands. -/

namespace Sys2Proof.Machine

/-- START's check of PROG (R90, R107, decision D9): not empty, of even length, every cell in 0 to 7. -/
def validProgram (m : Memory) : Bool := decide (m.length ≠ 0) && decide (m.length % 2 = 0) && Memory.wf m

/-- START(PROG, INIT_A, INIT_B, INIT_C) (R28, R107). The old state is no argument: nothing of it is kept (R108).
An initial value outside s64 is no Word (R110, decision D3). -/
def start (prog : Memory) (initA initB initC : Word) : State where
  a := initA
  b := initB
  c := initC
  ip := 0
  status := if validProgram prog then .running else .faulted
  faultCode := if validProgram prog then .noFault else .malformedProgram
  faultIp := none
  faultOpcode := none
  faultOperand := none
  output := []
  program := prog

/-- What the host may send (R11, R116): there is no command that writes the Program, a register or ip during a run. -/
inductive HostCommand where
  | start (prog : Memory) (initA initB initC : Word)
  | abort
deriving DecidableEq, Repr

/-- The state after a host command, which falls between two cycles. ABORT is no transition: the state stays as the last
completed cycle left it, and no fault is recorded (R117, decision D23). -/
def hostCommand (cmd : HostCommand) (s : State) : State :=
  match cmd with
  | .start prog initA initB initC => Sys2Proof.Machine.start prog initA initB initC
  | .abort => s

end Sys2Proof.Machine
end

