-- ==== Sys2Proof/Machine/Run.lean ====
section
/-! DEFINITION. A run (40_cycle.md section 5) under a bound on its cycles, and what the host can read of it. The block
has no bound of its own (R73); the bound is the host's (R118). -/

namespace Sys2Proof.Machine

/-- Cycles back to back while there is one to perform (R72), at most `k`. The state where the run ended, or the state
after `k` cycles. -/
def runCycles : Nat → State → State
  | 0, s => s
  | k + 1, s =>
    match step s with
    | .next t => runCycles k t
    | .fault _ => s
    | .refused _ => s

/-- The states at the start of those cycles, in order. -/
def cycleStarts : Nat → State → List State
  | 0, _ => []
  | k + 1, s =>
    match step s with
    | .next t => s :: cycleStarts k t
    | .fault _ => []
    | .refused _ => []

/-- The result of a run that has ended (R12, R74). -/
inductive RunResult where
  /-- HALTED: the Output. -/
  | output (digits : List Cell)
  /-- FAULTED: the fault with its context. -/
  | fault (code : FaultCode) (ip : Option Nat) (opcode operand : Option Cell)
deriving DecidableEq, Repr

/-- What a state gives as the run's result: nothing while RUNNING (R74). -/
def result (s : State) : Option RunResult :=
  match s.status with
  | .running => none
  | .halted => some (.output s.output)
  | .faulted => some (.fault s.faultCode s.faultIp s.faultOpcode s.faultOperand)

/-- `run(program, initial_registers)` (R12), given at most `k` cycles. -/
def run (k : Nat) (prog : Memory) (initA initB initC : Word) : Option RunResult :=
  result (runCycles k (start prog initA initB initC))

/-- OUT_STREAM: the current Output, readable as it grows (R11, R26, R88). -/
def outStream (s : State) : List Cell := s.output

/-- A, B, C and IP, readable once the run has ended (R11, R105). -/
def endRegisters (s : State) : Option (Word × Word × Word × Nat) :=
  match s.status with
  | .running => none
  | .halted => some (s.a, s.b, s.c, s.ip)
  | .faulted => some (s.a, s.b, s.c, s.ip)

/-- The number of STATUS (R23, decision D15). -/
def Status.number : Status → Nat
  | .running => 0
  | .halted => 1
  | .faulted => 2

/-- The number of FAULT_CODE (R24, decision D15). -/
def FaultCode.number : FaultCode → Nat
  | .noFault => 0
  | .malformedProgram => 1
  | .invalidComboOperand => 2
  | .arithmeticAnomaly => 3
  | .operandFetchOutOfRange => 4

end Sys2Proof.Machine
end

