-- ==== Sys2Proof/Safety.lean ====
section
/-! DEFINITION. What the claims speak of: the invariant of a run, what an instruction may write and read, the digit a
cycle emits, and the programs of which more is true. -/

namespace Sys2Proof.Safety

open Sys2Proof.Machine

/-- The program is within a realisation's bound (R6, decision D5). -/
abbrev FitsRealisation (s : State) : Prop := s.program.length ≤ Config.maxProgramLen

/-- The fault record is the one that the fault's rule fills (R24, R89 to R93). -/
structure RecordFitsFault (s : State) : Prop where
  clear : s.faultCode = .noFault →
    s.status ≠ .faulted ∧ s.faultIp = none ∧ s.faultOpcode = none ∧ s.faultOperand = none
  faulted : s.faultCode ≠ .noFault → s.status = .faulted
  malformedProgram : s.faultCode = .malformedProgram →
    s.faultIp = none ∧ s.faultOpcode = none ∧ s.faultOperand = none
  invalidComboOperand : s.faultCode = .invalidComboOperand →
    s.faultIp = some s.ip ∧ s.faultOpcode ∈ [some 0, some 2, some 5, some 6, some 7] ∧ s.faultOperand = some 7
  arithmeticAnomaly : s.faultCode = .arithmeticAnomaly →
    s.faultIp = some s.ip ∧ s.faultOpcode ∈ [some 0, some 6, some 7] ∧ s.faultOperand ∈ [some 4, some 5, some 6]
  operandFetchOutOfRange : s.faultCode = .operandFetchOutOfRange →
    s.faultIp = some s.ip ∧ s.ip + 1 = s.program.length ∧ s.faultOpcode ≠ none ∧ s.faultOperand = none

/-- The invariant of a run. -/
structure RunInv (s : State) : Prop where
  /-- The program is valid unless START found it malformed (R90, R111). -/
  valid : s.faultCode ≠ .malformedProgram → validProgram s.program = true
  /-- Where START found it malformed, no cycle ran (R90). -/
  malformed : s.faultCode = .malformedProgram → validProgram s.program = false ∧ s.ip = 0 ∧ s.output = []
  /-- ip is at most max(N, 7) (R7, R21). -/
  ipBound : s.ip ≤ max s.program.length 7
  /-- A HALTED run stands at or past the end (R63). -/
  halted : s.status = .halted → s.program.length ≤ s.ip
  /-- The record is the fault's (R24). -/
  record : RecordFitsFault s

/-- No register is negative (R18). -/
abbrev NonNegative (s : State) : Prop := 0 ≤ s.a.toInt ∧ 0 ≤ s.b.toInt ∧ 0 ≤ s.c.toInt

/-- Every jump at an even index has an even target: the programs of which the source's sentence on ip is true (R21). -/
abbrev EvenTargets (m : Memory) : Prop :=
  ∀ k x, decode (m.drop (2 * k)) = .ok (.jnz x) → x.toNat % 2 = 0

/-- The "written by" column of R16. -/
def mayWrite : Reg → Instr → Bool
  | .a, .adv _ => true
  | .b, .bxl _ => true
  | .b, .bst _ => true
  | .b, .bxc _ => true
  | .b, .bdv _ => true
  | .c, .cdv _ => true
  | _, _ => false

/-- A combo operand that is register `r` (R16, R51). -/
def comboNames (r : Reg) (x : Combo) : Bool := decide (x = .reg r)

/-- The "read by" column of R16. -/
def mayRead : Reg → Instr → Bool
  | .a, .jnz _ => true
  | .a, .adv _ => true
  | .a, .bdv _ => true
  | .a, .cdv _ => true
  | .b, .bxl _ => true
  | .b, .bxc _ => true
  | .c, .bxc _ => true
  | r, .adv x => comboNames r x
  | r, .bst x => comboNames r x
  | r, .out x => comboNames r x
  | r, .bdv x => comboNames r x
  | r, .cdv x => comboNames r x
  | _, _ => false

/-- The digits that the next cycle appends to Output, as R87 gives them: one where it executes OUT with an operand that
resolves, and none elsewhere. -/
def emitted (s : State) : List Cell :=
  match nextInstr s with
  | some (.out x) =>
    match combo x s with
    | some v => [mod8 v]
    | none => []
  | _ => []

/-- The next cycle executes an instruction and the run goes on (R76). -/
def executesNext (s : State) : Bool :=
  match nextInstr s with
  | none => false
  | some i =>
    match exec i s with
    | .next t => decide (t.status = .running)
    | .fault _ => false
    | .refused _ => false

end Sys2Proof.Safety
end

