-- ==== Sys2Proof/Certificates/Slice0/Obligations.lean ====
section
/-! DEFINITION. The statements for the provers. Each docstring names the rule of the spec it comes from; where a clause
rests on one of the spec's own decisions (D<n>) or on a log entry, it says so. -/

open Sys2Proof Sys2Proof.Machine Sys2Proof.Safety

/-! ### Encoding -/

/-- Decoding the two cells of any instruction gives the instruction back, with every operand at every value, the
reserved combo operand and BXC's ignored cell among them (R47, R53). -/
def Obligations.DecodeOfEncodeIsTheInstruction : Prop :=
  ∀ (i : Instr) (rest : List Int), decode (encode i ++ rest) = .ok i

/-- Each pair of cells has one meaning: where two cells decode to an instruction, they are the cells it encodes to. -/
def Obligations.EncodeOfDecodeIsTheCells : Prop :=
  ∀ (cells : List Int) (i : Instr), decode cells = .ok i → encode i = cells.take 2

/-- The opcode map (R54, R65): the opcode cell alone selects the instruction, and the operand cell is its operand. -/
def Obligations.OpcodeAloneSelectsTheInstruction : Prop :=
  ∀ x : Cell,
    decode [0, intOfCell x] = .ok (.adv (comboOfCell x)) ∧ decode [1, intOfCell x] = .ok (.bxl x) ∧
    decode [2, intOfCell x] = .ok (.bst (comboOfCell x)) ∧ decode [3, intOfCell x] = .ok (.jnz x) ∧
    decode [4, intOfCell x] = .ok (.bxc x) ∧ decode [5, intOfCell x] = .ok (.out (comboOfCell x)) ∧
    decode [6, intOfCell x] = .ok (.bdv (comboOfCell x)) ∧ decode [7, intOfCell x] = .ok (.cdv (comboOfCell x))

/-- R49: the operand mode is fixed by the opcode and never by the operand value: literal for BXL and JNZ, ignored for
BXC, combo for the five others. -/
def Obligations.OperandModeIsFixedByTheOpcode : Prop :=
  ∀ (op x : Cell) (i : Instr), decode [intOfCell op, intOfCell x] = .ok i →
    i.mode = if op = 1 ∨ op = 3 then .literal else if op = 4 then .ignored else .combo

/-- R55: every pair of cells is an instruction, and the reserved ones are combo operand 7 under ADV, BST, OUT, BDV and
CDV, in the 6-bit words 7, 23, 47, 55 and 63. -/
def Obligations.EveryCellPairIsAnInstruction : Prop :=
  ∀ op x : Cell, ∃ i, decode [intOfCell op, intOfCell x] = .ok i ∧
    (i.wellFormed = false ↔ op.toNat * 8 + x.toNat ∈ [7, 23, 47, 55, 63])

/-- R57: the decoder takes two cells, whatever follows them, and nothing shorter. -/
def Obligations.DecoderTakesExactlyTwoCells : Prop :=
  ∀ (op x : Int) (rest : List Int), decode (op :: x :: rest) = decode [op, x] ∧
    (∀ i, decode [op] ≠ .ok i) ∧ ∀ i, decode [] ≠ .ok i

/-- A program element outside 0 to 7 is not an encoding (R56, decision D9): two integers decode to an instruction where
both are cells, and only there. -/
def Obligations.OnlyCellsDecode : Prop :=
  ∀ op x : Int, (∃ i, decode [op, x] = .ok i) ↔ (0 ≤ op ∧ op ≤ 7) ∧ (0 ≤ x ∧ x ≤ 7)

/-- One word of each instruction, in the 6-bit view of R48 (the words of the spec's test vectors). -/
def Obligations.TableWordsDecodeToTheirInstructions : Prop :=
  decodeTableWord 8 0b000001 = some (.adv (.lit 1)) ∧ decodeTableWord 8 0b001111 = some (.bxl 7) ∧
  decodeTableWord 8 0b010110 = some (.bst (.reg .c)) ∧ decodeTableWord 8 0b011000 = some (.jnz 0) ∧
  decodeTableWord 8 0b100000 = some (.bxc 0) ∧ decodeTableWord 8 0b101100 = some (.out (.reg .a)) ∧
  decodeTableWord 8 0b110011 = some (.bdv (.lit 3)) ∧ decodeTableWord 8 0b111111 = some (.cdv .reserved)

/-! ### Operands and arithmetic -/

/-- R50: a literal operand is the cell's value, and no register changes what BXL and JNZ take it for. -/
def Obligations.LiteralOperandIsTheCellItself : Prop :=
  ∀ x : Cell, (literal x).toInt = (x.toNat : Int) ∧
    (∀ s s' t t' : State, s.a ≠ 0 → s'.a ≠ 0 → exec (.jnz x) s = .next t → exec (.jnz x) s' = .next t' →
      t.ip = x.toNat ∧ t'.ip = x.toNat) ∧
    ∀ s s' t t' : State, exec (.bxl x) s = .next t → exec (.bxl x) s' = .next t' →
      s.b ^^^ t.b = s'.b ^^^ t'.b

/-- R51: combo operands 0 to 3 are themselves, 4, 5 and 6 are the current value of A, B and C, and 7 raises
InvalidComboOperand in each of the five instructions that resolve it. -/
def Obligations.ComboOperandResolution : Prop :=
  ∀ s : State,
    combo (comboOfCell 0) s = some 0 ∧ combo (comboOfCell 1) s = some 1 ∧
    combo (comboOfCell 2) s = some 2 ∧ combo (comboOfCell 3) s = some 3 ∧
    combo (comboOfCell 4) s = some s.a ∧ combo (comboOfCell 5) s = some s.b ∧ combo (comboOfCell 6) s = some s.c ∧
    combo (comboOfCell 7) s = none ∧
    ∀ f ∈ [Instr.adv, Instr.bst, Instr.out, Instr.bdv, Instr.cdv],
      ∃ t, exec (f (comboOfCell 7)) s = .next t ∧ t.status = .faulted ∧ t.faultCode = .invalidComboOperand

/-- The quotient is exact for every exponent e ≥ 0 that a register can hold, and lies between the dividend and 0; a
negative exponent has none (R17, R77, R78; decisions D12 and D13). -/
def Obligations.PowerOfTwoQuotientIsExact : Prop :=
  ∀ a e : Word, (divPow2 a e = none ↔ e.toInt < 0) ∧
    ∀ q, divPow2 a e = some q →
      q.toInt = a.toInt.tdiv ((2 : Int) ^ e.toInt.toNat) ∧
      (0 ≤ a.toInt → 0 ≤ q.toInt ∧ q.toInt ≤ a.toInt) ∧ (a.toInt ≤ 0 → a.toInt ≤ q.toInt ∧ q.toInt ≤ 0)

/-- The corners of R78 (decision D12): exponent 0 gives the dividend, exponents of 64 and more give 0, and exponent 63
gives -1 for -2^63 and 0 for every other dividend. -/
def Obligations.QuotientAtTheCornerExponents : Prop :=
  ∀ a e : Word,
    (e = 0 → divPow2 a e = some a) ∧ (64 ≤ e.toInt → divPow2 a e = some 0) ∧
    (e = 63 → divPow2 a e = some (if a.toInt = -(2 ^ 63) then BitVec.ofInt 64 (-1) else 0))

/-- For a dividend that is not negative the division is an arithmetic right shift, whatever the exponent (R77). -/
def Obligations.ShiftEqualsDivisionOfNonNegativeDividend : Prop :=
  ∀ a e : Word, 0 ≤ a.toInt → 0 ≤ e.toInt → divPow2 a e = some (a.sshiftRight e.toNat)

/-- `mod8` is the formula the source recommends, on every register value (R70, decision D10). -/
def Obligations.ModEightIsTheRecommendedFormula : Prop :=
  ∀ v : Word, ((mod8 v).toNat : Int) = (v.toInt.tmod 8 + 8).tmod 8 ∧ (8 : Int) ∣ v.toInt - ((mod8 v).toNat : Int)

/-- XOR works bit by bit, and its result is negative where one operand is and the other is not (R71, decision D11). -/
def Obligations.XorIsBitwiseAndItsSignFollows : Prop :=
  ∀ a b : Word, (∀ k, (xorWords a b).getLsbD k = ((a.getLsbD k) ^^ (b.getLsbD k))) ∧
    ((xorWords a b).toInt < 0 ↔ (a.toInt < 0 ∧ 0 ≤ b.toInt) ∨ (0 ≤ a.toInt ∧ b.toInt < 0))

/-! ### What each instruction does, and where it completes -/

/-- ADV (R79): where the exponent resolves and is not negative, A takes the exact quotient, ip advances by 2, and
nothing else changes. The exponents of 64 and more are decision D12. -/
def Obligations.AdvDividesAIntoA : Prop :=
  ∀ (x : Combo) (s : State) (e : Word), combo x s = some e → 0 ≤ e.toInt →
    exec (.adv x) s =
      .next { s with a := BitVec.ofInt 64 (s.a.toInt.tdiv ((2 : Int) ^ e.toInt.toNat)), ip := s.ip + 2 }

/-- BDV (R80): as ADV, into B, with A kept (decision D12). The exponent may be the old B. -/
def Obligations.BdvDividesAIntoB : Prop :=
  ∀ (x : Combo) (s : State) (e : Word), combo x s = some e → 0 ≤ e.toInt →
    exec (.bdv x) s =
      .next { s with b := BitVec.ofInt 64 (s.a.toInt.tdiv ((2 : Int) ^ e.toInt.toNat)), ip := s.ip + 2 }

/-- CDV (R81): as ADV, into C, with A kept (decision D12). The exponent may be the old C. -/
def Obligations.CdvDividesAIntoC : Prop :=
  ∀ (x : Combo) (s : State) (e : Word), combo x s = some e → 0 ≤ e.toInt →
    exec (.cdv x) s =
      .next { s with c := BitVec.ofInt 64 (s.a.toInt.tdiv ((2 : Int) ^ e.toInt.toNat)), ip := s.ip + 2 }

/-- BXL (R82): for every operand, 7 among them, B takes B XOR the literal and nothing else but ip changes; the sign of B
is kept (XOR on two's complement is decision D11). -/
def Obligations.BxlXorsTheLiteralIntoB : Prop :=
  ∀ (x : Cell) (s : State), ∃ t, exec (.bxl x) s = .next t ∧
    t = { s with b := s.b ^^^ x.setWidth 64, ip := s.ip + 2 } ∧ (t.b.toInt < 0 ↔ s.b.toInt < 0)

/-- BST (R83): where the operand resolves, B takes its value mod 8, which lies in 0 to 7 for a negative value too
(decision D10), and nothing else but ip changes. -/
def Obligations.BstStoresModEightInB : Prop :=
  ∀ (x : Combo) (s : State) (v : Word), combo x s = some v →
    exec (.bst x) s = .next { s with b := BitVec.ofInt 64 (v.toInt % 8), ip := s.ip + 2 }

/-- JNZ taken (R85): with A not zero, a negative A among them, ip is the literal operand, odd or even, inside the program
or past it (decision D7), and nothing else changes. -/
def Obligations.JnzTakenSetsIpToTheLiteral : Prop :=
  ∀ (x : Cell) (s : State), s.a.toInt ≠ 0 → exec (.jnz x) s = .next { s with ip := x.toNat }

/-- JNZ not taken (R85): with A zero, ip advances by 2 and nothing else changes. -/
def Obligations.JnzNotTakenAdvances : Prop :=
  ∀ (x : Cell) (s : State), s.a.toInt = 0 → exec (.jnz x) s = .next { s with ip := s.ip + 2 }

/-- BXC (R84): for every operand cell, 7 among them, B takes B XOR C and nothing else but ip changes (R53; XOR on two's
complement is decision D11). -/
def Obligations.BxcXorsCIntoB : Prop :=
  ∀ (x : Cell) (s : State), exec (.bxc x) s = .next { s with b := s.b ^^^ s.c, ip := s.ip + 2 }

/-- OUT (R87): where the operand resolves, its value mod 8 is appended to Output (for a negative value, decision D10),
and nothing else but ip changes. -/
def Obligations.OutAppendsModEight : Prop :=
  ∀ (x : Combo) (s : State) (v : Word), combo x s = some v →
    exec (.out x) s = .next { s with output := s.output ++ [BitVec.ofInt 3 (v.toInt % 8)], ip := s.ip + 2 }

/-! ### Faults -/

/-- Executing a combo instruction with operand 7 (R52, R91; decisions D14 to D16): the record takes code
InvalidComboOperand, the ip, the opcode and 7, STATUS is FAULTED, and nothing else changes. -/
def Obligations.ReservedComboOperandRaises : Prop :=
  ∀ s : State,
    ∀ p ∈ [(Instr.adv .reserved, (0 : Cell)), (.bst .reserved, 2), (.out .reserved, 5), (.bdv .reserved, 6),
        (.cdv .reserved, 7)],
      exec p.1 s = .next { s with
        status := .faulted, faultCode := .invalidComboOperand, faultIp := some s.ip, faultOpcode := some p.2,
        faultOperand := some 7 }

/-- Dividing with a negative exponent (R92; decisions D13, D15, D16): it can come from a register only, the record takes
code ArithmeticAnomaly, the ip, the opcode and the operand cell 4, 5 or 6, STATUS is FAULTED, and nothing else changes. -/
def Obligations.NegativeExponentRaises : Prop :=
  ∀ (x : Combo) (s : State) (e : Word), combo x s = some e → e.toInt < 0 →
    ∃ r, x = .reg r ∧
      ∀ p ∈ [(Instr.adv x, (0 : Cell)), (.bdv x, 6), (.cdv x, 7)],
        exec p.1 s = .next { s with
          status := .faulted, faultCode := .arithmeticAnomaly, faultIp := some s.ip, faultOpcode := some p.2,
          faultOperand := some (match r with | .a => 4 | .b => 5 | .c => 6) }

/-- A fault is precise (R95, decision D16): a cycle that ends FAULTED writes no register, emits nothing, and leaves ip and
the Program; it fills the record with its own ip. -/
def Obligations.FaultingCycleChangesNothingElse : Prop :=
  ∀ s t : State, step s = .next t → t.status = .faulted →
    s.status = .running ∧ t.faultCode ≠ .noFault ∧ t.faultCode ≠ .malformedProgram ∧ t.faultIp = some s.ip ∧
    t.a = s.a ∧ t.b = s.b ∧ t.c = s.c ∧ t.ip = s.ip ∧ t.output = s.output ∧ t.program = s.program

/-- Which fault a cycle of a run reports, and in which order it checks (R94, decision D17): the halt test, then the
operand fetch (decision D8), then the combo operand (D14), then the exponent (D13). -/
def Obligations.ChecksOfACycleInOrder : Prop :=
  ∀ s t : State, RunInv s → s.status = .running → step s = .next t →
    (s.program.length ≤ s.ip → t.status = .halted ∧ t.faultCode = .noFault) ∧
    (s.ip + 1 = s.program.length → t.status = .faulted ∧ t.faultCode = .operandFetchOutOfRange) ∧
    (s.ip + 1 < s.program.length → ∃ i, nextInstr s = some i ∧
      (i.wellFormed = false → t.status = .faulted ∧ t.faultCode = .invalidComboOperand) ∧
      (i.wellFormed = true →
        ((∃ x e, (i = .adv x ∨ i = .bdv x ∨ i = .cdv x) ∧ combo x s = some e ∧ e.toInt < 0) →
          t.status = .faulted ∧ t.faultCode = .arithmeticAnomaly) ∧
        ((∀ x e, (i = .adv x ∨ i = .bdv x ∨ i = .cdv x) → combo x s = some e → 0 ≤ e.toInt) →
          t.status = .running ∧ t.faultCode = .noFault)))

/-- Executing an instruction always answers a next state: no instruction stops the model, on any operand, in any state
(R55, R95). -/
def Obligations.EveryInstructionAnswersNext : Prop :=
  ∀ (i : Instr) (s : State), ∃ t, exec i s = .next t

/-- With no negative register no cycle of a run raises ArithmeticAnomaly (R92; R18 is the spec's own inference). -/
def Obligations.NonNegativeRegistersRaiseNoAnomaly : Prop :=
  ∀ s t : State, NonNegative s → s.status = .running → s.faultCode = .noFault → step s = .next t →
    t.faultCode ≠ .arithmeticAnomaly

/-! ### The cycle -/

/-- A step of a RUNNING state whose two cells at ip decode to an instruction is exec of that instruction, with nothing
around it, whatever the parity of ip (R62, R64, R65; decision D7). -/
def Obligations.StepRunsTheDecodedInstruction : Prop :=
  ∀ (s : State) (op x : Int) (i : Instr), s.status = .running → memRead s.program s.ip = some op →
    memRead s.program (s.ip + 1) = some x → decode [op, x] = .ok i → step s = exec i s

/-- R63: a cycle that starts with ip ≥ N sets STATUS to HALTED and changes nothing else, and HALTED is reached there
only. -/
def Obligations.HaltTestAtTheStartOfACycle : Prop :=
  (∀ s : State, s.status = .running → s.program.length ≤ s.ip → step s = .next { s with status := .halted }) ∧
  ∀ s t : State, step s = .next t → t.status = .halted → s.status = .running ∧ s.program.length ≤ s.ip

/-- A RUNNING cycle with ip = N - 1 raises OperandFetchOutOfRange, whatever its opcode cell (R64, R93; decisions D8, D15
and D16): the record takes the ip and the opcode cell, no operand, and nothing else but STATUS changes. -/
def Obligations.MissingOperandCellRaises : Prop :=
  ∀ (s : State) (op : Cell), s.status = .running → s.ip + 1 = s.program.length →
    memRead s.program s.ip = some (intOfCell op) →
    step s = .next { s with
      status := .faulted, faultCode := .operandFetchOutOfRange, faultIp := some s.ip, faultOpcode := some op,
      faultOperand := none }

/-- No cycle runs from HALTED or FAULTED (R23, R61, R96; decision D24): the step answers no next state, but a stop named
after the run state (log 4). -/
def Obligations.NoCycleOnceTheRunHasEnded : Prop :=
  ∀ s : State, (s.status = .halted → step s = .fault .noCycleWhenHalted) ∧
    (s.status = .faulted → step s = .fault .noCycleWhenFaulted) ∧
    ((∃ t, step s = .next t) → s.status = .running)

/-- R69: a completed instruction moves ip by 2, which stays within N, or to a taken JNZ's literal, which is at most 7;
a cycle that halts or faults keeps ip. -/
def Obligations.IpAdvancesByTwoOrJumps : Prop :=
  ∀ s t : State, step s = .next t →
    (t.status = .running → ∃ i, nextInstr s = some i ∧
      ((∃ x, i = .jnz x ∧ s.a ≠ 0 ∧ t.ip = x.toNat ∧ t.ip ≤ 7) ∨
        ((∀ x, i = .jnz x → s.a = 0) ∧ t.ip = s.ip + 2 ∧ t.ip ≤ s.program.length))) ∧
    (t.status ≠ .running → t.ip = s.ip)

/-- R16: an instruction changes only the registers it writes by the table, and its effect on everything else does not
depend on a register it does not read by the table. -/
def Obligations.RegistersReadAndWrittenByTheTable : Prop :=
  ∀ (i : Instr) (s t : State), exec i s = .next t →
    (∀ r, mayWrite r i = false → readReg t r = readReg s r) ∧
    ∀ r v, mayRead r i = false → ∃ t', exec i (writeReg r v s) = .next t' ∧
      writeReg r 0 t' = writeReg r 0 t ∧
      (readReg t' r = readReg t r ∨ (readReg t r = readReg s r ∧ readReg t' r = v))

/-- The frame of every instruction (R13, R22, R32, R95): every program cell reads as before, each register but the
destination is unchanged, Output is unchanged but for OUT, and STATUS and the fault record are unchanged but for a
cycle that faults, which changes nothing else (decision D16). -/
def Obligations.FrameOfEveryInstruction : Prop :=
  ∀ (i : Instr) (s t : State), exec i s = .next t →
    (∀ k, memRead t.program k = memRead s.program k) ∧
    ((∀ x, i ≠ .adv x) → t.a = s.a) ∧
    ((∀ x, i ≠ .bxl x) → (∀ x, i ≠ .bst x) → (∀ x, i ≠ .bxc x) → (∀ x, i ≠ .bdv x) → t.b = s.b) ∧
    ((∀ x, i ≠ .cdv x) → t.c = s.c) ∧
    ((∀ x, i ≠ .out x) → t.output = s.output) ∧
    ((t.status = s.status ∧ t.faultCode = s.faultCode ∧ t.faultIp = s.faultIp ∧ t.faultOpcode = s.faultOpcode ∧
        t.faultOperand = s.faultOperand) ∨
      t = { s with
        status := .faulted, faultCode := t.faultCode, faultIp := some s.ip, faultOpcode := some i.opcodeCell,
        faultOperand := some i.operandCell })

/-- The transitions of the run state (R61, with the spec's own state FAULTED of D16): a step starts RUNNING; a cycle that
stays RUNNING executed an instruction, one that ends HALTED found ip ≥ N, and one that ends FAULTED did neither. -/
def Obligations.RunStateTransitions : Prop :=
  ∀ s t : State, step s = .next t → s.status = .running ∧
    (t.status = .running ↔ executesNext s = true) ∧
    (t.status = .halted ↔ s.program.length ≤ s.ip) ∧
    (t.status = .faulted ↔ s.ip < s.program.length ∧ executesNext s = false)

/-! ### Memory and Output -/

/-- R30, R31: MemRead gives a value for the indices 0 to N - 1 and no other, and in a program whose cells are u3 values
it gives one of those. -/
def Obligations.ProgramCellsAreReadBelowN : Prop :=
  ∀ (m : Memory) (k : Nat), ((∃ v, memRead m k = some v) ↔ k < m.length) ∧
    (Memory.wf m = true → ∀ v, memRead m k = some v → 0 ≤ v ∧ v ≤ 7)

/-- R33: Emit appends one digit at the end, keeps the earlier ones, and OUT is the only instruction that emits. -/
def Obligations.OnlyOutEmitsAndItAppendsOneDigit : Prop :=
  (∀ (d : Cell) (s : State), (emit d s).output = s.output ++ [d]) ∧
  ∀ (i : Instr) (s t : State), exec i s = .next t →
    t.output = s.output ∨ ∃ x d, i = .out x ∧ t.output = s.output ++ [d]

/-- After any number of cycles, Output is what it was, followed by the digits that the executed OUTs emitted, in the order
they executed; so the host reads a prefix of the run's Output at any time (R88). Each digit is `mod8` of the resolved
operand, which for a negative value is decision D10 (log 7). -/
def Obligations.OutputIsInExecutionOrder : Prop :=
  ∀ (k : Nat) (s : State), outStream (runCycles k s) = s.output ++ (cycleStarts k s).flatMap emitted

/-- R111: from START on, whatever the number of cycles, the Program is PROG, and the one host command that is not START
writes no cell. -/
def Obligations.ProgramStaysWhatStartLoaded : Prop :=
  (∀ (k : Nat) (prog : Memory) (a b c : Word), (runCycles k (start prog a b c)).program = prog) ∧
  ∀ s : State, (hostCommand .abort s).program = s.program

/-! ### START and the host -/

/-- START (R28, R90, R107; decisions D9, D15 and D25): every state item has the value of R28, for a valid and for a
malformed program. -/
def Obligations.StartSetsEveryStateItem : Prop :=
  ∀ (prog : Memory) (a b c : Word),
    ((prog.length ≠ 0 ∧ prog.length % 2 = 0 ∧ ∀ v ∈ prog, 0 ≤ v ∧ v ≤ 7) →
      start prog a b c = State.mk a b c 0 .running .noFault none none none [] prog) ∧
    ((prog.length = 0 ∨ prog.length % 2 = 1 ∨ ∃ v ∈ prog, v < 0 ∨ 7 < v) →
      start prog a b c = State.mk a b c 0 .faulted .malformedProgram none none none [] prog)

/-- R108: a START makes a fresh run, the same whatever state the last run left. -/
def Obligations.StartKeepsNothingOfTheLastRun : Prop :=
  ∀ (prog : Memory) (a b c : Word) (s s' : State),
    hostCommand (.start prog a b c) s = hostCommand (.start prog a b c) s' ∧
    (hostCommand (.start prog a b c) s).output = [] ∧ (hostCommand (.start prog a b c) s).ip = 0

/-- The reset state is START with the empty program and zero registers. The empty PROG is the model's choice (log 1), and
so are the zeros (log 2). -/
def Obligations.ResetIsStartWithNothingLoaded : Prop :=
  State.reset = start [] 0 0 0

/-- R12: a run's result is its Output where it HALTED, the fault with its context where it FAULTED, and nothing while it
is RUNNING. -/
def Obligations.ResultOfARun : Prop :=
  ∀ (k : Nat) (prog : Memory) (a b c : Word) (s : State), s = runCycles k (start prog a b c) →
    (s.status = .halted → run k prog a b c = some (.output s.output)) ∧
    (s.status = .faulted →
      run k prog a b c = some (.fault s.faultCode s.faultIp s.faultOpcode s.faultOperand)) ∧
    (s.status = .running → run k prog a b c = none)

/-- A table word placed from outside runs as the next cycle (log 3): the decoder reads an instruction of each 6-bit word,
and the step executes it on the same registers, ip and Output. -/
def Obligations.PlacedTableWordRunsNext : Prop :=
  ∀ (s : State) (w : Nat), w < 64 → ∃ i, decodeTableWord 8 w = some i ∧ encodeTableWord i = w ∧
    step (s.withFetchWord 8 w) = exec i (s.withFetchWord 8 w) ∧
    (s.withFetchWord 8 w).a = s.a ∧ (s.withFetchWord 8 w).b = s.b ∧ (s.withFetchWord 8 w).c = s.c ∧
    (s.withFetchWord 8 w).ip = s.ip ∧ (s.withFetchWord 8 w).output = s.output

/-! ### Invariants and runs -/

/-- Every step keeps the invariant: the program is valid (R90), ip is at most max(N, 7) (R7, R21), HALTED stands past the
end (R63), and the fault record is the one of the fault's rule (R24, R89 to R93; decisions D15 and D16). -/
def Obligations.StepKeepsTheInvariant : Prop :=
  ∀ s t : State, RunInv s → step s = .next t → RunInv t

/-- The reset state meets the invariant (it is the model's choice, log 1 and log 2). -/
def Obligations.ResetMeetsTheInvariant : Prop := RunInv State.reset

/-- Whatever program and registers START is given, the state it leaves meets the invariant (R28, R107). -/
def Obligations.StartMeetsTheInvariant : Prop :=
  ∀ (prog : Memory) (a b c : Word), RunInv (start prog a b c)

/-- A RUNNING state that meets the invariant always has a next state: no refusal and no stop inside a run (R61). -/
def Obligations.RunningStateAlwaysSteps : Prop :=
  ∀ s : State, RunInv s → s.status = .running → ∃ t, step s = .next t

/-- No step makes a register negative where none was (R18, the spec's own inference). -/
def Obligations.StepKeepsRegistersNonNegative : Prop :=
  ∀ s t : State, NonNegative s → step s = .next t → NonNegative t

/-- Where every jump at an even index has an even target, ip stays even (R20, R21, R93): an even ip never becomes odd. -/
def Obligations.EvenTargetsKeepIpEven : Prop :=
  ∀ s t : State, EvenTargets s.program → s.ip % 2 = 0 → step s = .next t → t.ip % 2 = 0

/-- A run of a program whose even-index jumps have even targets never raises OperandFetchOutOfRange (R93, decision D8). -/
def Obligations.EvenTargetsNeverMissAnOperand : Prop :=
  ∀ (prog : Memory) (a b c : Word) (k : Nat), EvenTargets prog →
    (runCycles k (start prog a b c)).faultCode ≠ .operandFetchOutOfRange

/-- In every run, ip is at most max(N, 7) (R7, R21, the spec's own inference). -/
def Obligations.IpIsBoundedInEveryRun : Prop :=
  ∀ (prog : Memory) (a b c : Word) (k : Nat), (runCycles k (start prog a b c)).ip ≤ max prog.length 7

/-- More cycles change nothing once a run has a result: the result is the same under every larger bound (R74, R75). -/
def Obligations.ResultDoesNotDependOnTheBound : Prop :=
  ∀ (k j : Nat) (prog : Memory) (a b c : Word) (r : RunResult),
    run k prog a b c = some r → run (k + j) prog a b c = some r

/-- A run that has ended performed one cycle more than it executed instructions: the last one halts or faults (R76, the
spec's own inference). -/
def Obligations.EndedRunTookOneCycleMore : Prop :=
  ∀ (prog : Memory) (a b c : Word) (k : Nat), validProgram prog = true →
    (runCycles k (start prog a b c)).status ≠ .running →
    (cycleStarts k (start prog a b c)).length = ((cycleStarts k (start prog a b c)).filter executesNext).length + 1
end

