-- ==== Sys2Proof/Laws/Encoding.lean ====
section
/-! SUPPORT. The small lemmas of the decoder and the encoder. -/

namespace Sys2Proof

@[simp] theorem cellOfInt_intOfCell (x : Cell) : cellOfInt (intOfCell x) = some x := by
  revert x; decide

/-- A program integer is a cell exactly where it is that cell's value (R56). -/
theorem cellOfInt_eq_some {v : Int} {x : Cell} : cellOfInt v = some x ↔ v = intOfCell x := by
  constructor
  · intro h
    unfold cellOfInt at h
    split at h
    · obtain ⟨h0, h7⟩ := ‹0 ≤ v ∧ v ≤ 7›
      obtain rfl := Option.some.inj h
      interval_cases v <;> rfl
    · cases h
  · rintro rfl
    exact cellOfInt_intOfCell x

theorem cellOfInt_eq_none {v : Int} : cellOfInt v = none ↔ v < 0 ∨ 7 < v := by
  unfold cellOfInt
  split <;> simp <;> omega

@[simp] theorem comboOfCell_cell (x : Combo) : comboOfCell x.cell = x := by
  rcases x with v | r | _
  · revert v; decide
  · cases r <;> rfl
  · rfl

@[simp] theorem cell_comboOfCell (x : Cell) : (comboOfCell x).cell = x := by
  revert x; decide

@[simp] theorem opcodeCell_decodePair (op x : Cell) : (decodePair op x).opcodeCell = op := by
  revert op x; decide

@[simp] theorem operandCell_decodePair (op x : Cell) : (decodePair op x).operandCell = x := by
  revert op x; decide

@[simp] theorem decodePair_cells (i : Instr) : decodePair i.opcodeCell i.operandCell = i := by
  cases i <;> simp [Instr.opcodeCell, Instr.operandCell, decodePair]

/-- What it takes for a sequence of program integers to start with an instruction. -/
theorem decode_eq_ok {cells : List Int} {i : Instr} :
    decode cells = .ok i ↔ ∃ op x rest, cells = intOfCell op :: intOfCell x :: rest ∧ i = decodePair op x := by
  constructor
  · intro h
    match cells, h with
    | u :: v :: rest, h =>
      simp only [decode] at h
      split at h
      · cases h
      · split at h
        · cases h
        · rename_i _ o ho _ y hy
          exact ⟨o, y, rest, by rw [cellOfInt_eq_some.1 ho, cellOfInt_eq_some.1 hy], (Except.ok.inj h).symm⟩
  · rintro ⟨op, x, rest, rfl, rfl⟩
    simp [decode]

end Sys2Proof
end

