-- ==== Sys2Proof/Laws/State.lean ====
section
/-! SUPPORT. One lemma for each field of State under each named operation, so that no proof unfolds a record update. -/

namespace Sys2Proof.Machine

/-! ### Registers -/

@[simp] theorem readReg_a (s : State) : readReg s .a = s.a := rfl
@[simp] theorem readReg_b (s : State) : readReg s .b = s.b := rfl
@[simp] theorem readReg_c (s : State) : readReg s .c = s.c := rfl

/-- A register reads as it was last written, and no write touches another one: there are no aliases (R14). -/
theorem readReg_writeReg (r q : Reg) (v : Word) (s : State) :
    readReg (writeReg r v s) q = if q = r then v else readReg s q := by
  cases r <;> cases q <;> rfl

@[simp] theorem writeReg_a_a (v : Word) (s : State) : (writeReg .a v s).a = v := rfl
@[simp] theorem writeReg_a_b (v : Word) (s : State) : (writeReg .a v s).b = s.b := rfl
@[simp] theorem writeReg_a_c (v : Word) (s : State) : (writeReg .a v s).c = s.c := rfl
@[simp] theorem writeReg_b_a (v : Word) (s : State) : (writeReg .b v s).a = s.a := rfl
@[simp] theorem writeReg_b_b (v : Word) (s : State) : (writeReg .b v s).b = v := rfl
@[simp] theorem writeReg_b_c (v : Word) (s : State) : (writeReg .b v s).c = s.c := rfl
@[simp] theorem writeReg_c_a (v : Word) (s : State) : (writeReg .c v s).a = s.a := rfl
@[simp] theorem writeReg_c_b (v : Word) (s : State) : (writeReg .c v s).b = s.b := rfl
@[simp] theorem writeReg_c_c (v : Word) (s : State) : (writeReg .c v s).c = v := rfl
@[simp] theorem writeReg_ip (r : Reg) (v : Word) (s : State) : (writeReg r v s).ip = s.ip := by cases r <;> rfl
@[simp] theorem writeReg_status (r : Reg) (v : Word) (s : State) : (writeReg r v s).status = s.status := by cases r <;> rfl
@[simp] theorem writeReg_faultCode (r : Reg) (v : Word) (s : State) : (writeReg r v s).faultCode = s.faultCode := by cases r <;> rfl
@[simp] theorem writeReg_faultIp (r : Reg) (v : Word) (s : State) : (writeReg r v s).faultIp = s.faultIp := by cases r <;> rfl
@[simp] theorem writeReg_faultOpcode (r : Reg) (v : Word) (s : State) : (writeReg r v s).faultOpcode = s.faultOpcode := by cases r <;> rfl
@[simp] theorem writeReg_faultOperand (r : Reg) (v : Word) (s : State) : (writeReg r v s).faultOperand = s.faultOperand := by cases r <;> rfl
@[simp] theorem writeReg_output (r : Reg) (v : Word) (s : State) : (writeReg r v s).output = s.output := by cases r <;> rfl
@[simp] theorem writeReg_program (r : Reg) (v : Word) (s : State) : (writeReg r v s).program = s.program := by cases r <;> rfl

/-! ### Output -/

@[simp] theorem emit_a (d : Cell) (s : State) : (emit d s).a = s.a := rfl
@[simp] theorem emit_b (d : Cell) (s : State) : (emit d s).b = s.b := rfl
@[simp] theorem emit_c (d : Cell) (s : State) : (emit d s).c = s.c := rfl
@[simp] theorem emit_ip (d : Cell) (s : State) : (emit d s).ip = s.ip := rfl
@[simp] theorem emit_status (d : Cell) (s : State) : (emit d s).status = s.status := rfl
@[simp] theorem emit_faultCode (d : Cell) (s : State) : (emit d s).faultCode = s.faultCode := rfl
@[simp] theorem emit_faultIp (d : Cell) (s : State) : (emit d s).faultIp = s.faultIp := rfl
@[simp] theorem emit_faultOpcode (d : Cell) (s : State) : (emit d s).faultOpcode = s.faultOpcode := rfl
@[simp] theorem emit_faultOperand (d : Cell) (s : State) : (emit d s).faultOperand = s.faultOperand := rfl
@[simp] theorem emit_output (d : Cell) (s : State) : (emit d s).output = s.output ++ [d] := rfl
@[simp] theorem emit_program (d : Cell) (s : State) : (emit d s).program = s.program := rfl

/-! ### The control result -/

@[simp] theorem retire_advance_ip (s : State) : (retire .advance s).ip = s.ip + 2 := rfl
@[simp] theorem retire_jumpTo_ip (n : Nat) (s : State) : (retire (.jumpTo n) s).ip = n := rfl
@[simp] theorem retire_a (ctl : Control) (s : State) : (retire ctl s).a = s.a := by cases ctl <;> rfl
@[simp] theorem retire_b (ctl : Control) (s : State) : (retire ctl s).b = s.b := by cases ctl <;> rfl
@[simp] theorem retire_c (ctl : Control) (s : State) : (retire ctl s).c = s.c := by cases ctl <;> rfl
@[simp] theorem retire_status (ctl : Control) (s : State) : (retire ctl s).status = s.status := by cases ctl <;> rfl
@[simp] theorem retire_faultCode (ctl : Control) (s : State) : (retire ctl s).faultCode = s.faultCode := by cases ctl <;> rfl
@[simp] theorem retire_faultIp (ctl : Control) (s : State) : (retire ctl s).faultIp = s.faultIp := by cases ctl <;> rfl
@[simp] theorem retire_faultOpcode (ctl : Control) (s : State) : (retire ctl s).faultOpcode = s.faultOpcode := by cases ctl <;> rfl
@[simp] theorem retire_faultOperand (ctl : Control) (s : State) : (retire ctl s).faultOperand = s.faultOperand := by cases ctl <;> rfl
@[simp] theorem retire_output (ctl : Control) (s : State) : (retire ctl s).output = s.output := by cases ctl <;> rfl
@[simp] theorem retire_program (ctl : Control) (s : State) : (retire ctl s).program = s.program := by cases ctl <;> rfl

/-! ### Faults and the halt -/

@[simp] theorem raise_a (code : FaultCode) (op x : Option Cell) (s : State) :
    (raise code op x s).a = s.a := rfl
@[simp] theorem raise_b (code : FaultCode) (op x : Option Cell) (s : State) :
    (raise code op x s).b = s.b := rfl
@[simp] theorem raise_c (code : FaultCode) (op x : Option Cell) (s : State) :
    (raise code op x s).c = s.c := rfl
@[simp] theorem raise_ip (code : FaultCode) (op x : Option Cell) (s : State) :
    (raise code op x s).ip = s.ip := rfl
@[simp] theorem raise_status (code : FaultCode) (op x : Option Cell) (s : State) :
    (raise code op x s).status = .faulted := rfl
@[simp] theorem raise_faultCode (code : FaultCode) (op x : Option Cell) (s : State) :
    (raise code op x s).faultCode = code := rfl
@[simp] theorem raise_faultIp (code : FaultCode) (op x : Option Cell) (s : State) :
    (raise code op x s).faultIp = some s.ip := rfl
@[simp] theorem raise_faultOpcode (code : FaultCode) (op x : Option Cell) (s : State) :
    (raise code op x s).faultOpcode = op := rfl
@[simp] theorem raise_faultOperand (code : FaultCode) (op x : Option Cell) (s : State) :
    (raise code op x s).faultOperand = x := rfl
@[simp] theorem raise_output (code : FaultCode) (op x : Option Cell) (s : State) :
    (raise code op x s).output = s.output := rfl
@[simp] theorem raise_program (code : FaultCode) (op x : Option Cell) (s : State) :
    (raise code op x s).program = s.program := rfl
@[simp] theorem raiseIn_a (i : Instr) (code : FaultCode) (s : State) :
    (raiseIn i code s).a = s.a := rfl
@[simp] theorem raiseIn_b (i : Instr) (code : FaultCode) (s : State) :
    (raiseIn i code s).b = s.b := rfl
@[simp] theorem raiseIn_c (i : Instr) (code : FaultCode) (s : State) :
    (raiseIn i code s).c = s.c := rfl
@[simp] theorem raiseIn_ip (i : Instr) (code : FaultCode) (s : State) :
    (raiseIn i code s).ip = s.ip := rfl
@[simp] theorem raiseIn_status (i : Instr) (code : FaultCode) (s : State) :
    (raiseIn i code s).status = .faulted := rfl
@[simp] theorem raiseIn_faultCode (i : Instr) (code : FaultCode) (s : State) :
    (raiseIn i code s).faultCode = code := rfl
@[simp] theorem raiseIn_faultIp (i : Instr) (code : FaultCode) (s : State) :
    (raiseIn i code s).faultIp = some s.ip := rfl
@[simp] theorem raiseIn_faultOpcode (i : Instr) (code : FaultCode) (s : State) :
    (raiseIn i code s).faultOpcode = some i.opcodeCell := rfl
@[simp] theorem raiseIn_faultOperand (i : Instr) (code : FaultCode) (s : State) :
    (raiseIn i code s).faultOperand = some i.operandCell := rfl
@[simp] theorem raiseIn_output (i : Instr) (code : FaultCode) (s : State) :
    (raiseIn i code s).output = s.output := rfl
@[simp] theorem raiseIn_program (i : Instr) (code : FaultCode) (s : State) :
    (raiseIn i code s).program = s.program := rfl
@[simp] theorem halt_a (s : State) : (halt s).a = s.a := rfl
@[simp] theorem halt_b (s : State) : (halt s).b = s.b := rfl
@[simp] theorem halt_c (s : State) : (halt s).c = s.c := rfl
@[simp] theorem halt_ip (s : State) : (halt s).ip = s.ip := rfl
@[simp] theorem halt_status (s : State) : (halt s).status = .halted := rfl
@[simp] theorem halt_faultCode (s : State) : (halt s).faultCode = s.faultCode := rfl
@[simp] theorem halt_faultIp (s : State) : (halt s).faultIp = s.faultIp := rfl
@[simp] theorem halt_faultOpcode (s : State) : (halt s).faultOpcode = s.faultOpcode := rfl
@[simp] theorem halt_faultOperand (s : State) : (halt s).faultOperand = s.faultOperand := rfl
@[simp] theorem halt_output (s : State) : (halt s).output = s.output := rfl
@[simp] theorem halt_program (s : State) : (halt s).program = s.program := rfl

/-! ### START -/

@[simp] theorem start_a (prog : Memory) (a b c : Word) :
    (start prog a b c).a = a := rfl
@[simp] theorem start_b (prog : Memory) (a b c : Word) :
    (start prog a b c).b = b := rfl
@[simp] theorem start_c (prog : Memory) (a b c : Word) :
    (start prog a b c).c = c := rfl
@[simp] theorem start_ip (prog : Memory) (a b c : Word) :
    (start prog a b c).ip = 0 := rfl
@[simp] theorem start_status (prog : Memory) (a b c : Word) :
    (start prog a b c).status = (if validProgram prog then .running else .faulted) := rfl
@[simp] theorem start_faultCode (prog : Memory) (a b c : Word) :
    (start prog a b c).faultCode = (if validProgram prog then .noFault else .malformedProgram) := rfl
@[simp] theorem start_faultIp (prog : Memory) (a b c : Word) :
    (start prog a b c).faultIp = none := rfl
@[simp] theorem start_faultOpcode (prog : Memory) (a b c : Word) :
    (start prog a b c).faultOpcode = none := rfl
@[simp] theorem start_faultOperand (prog : Memory) (a b c : Word) :
    (start prog a b c).faultOperand = none := rfl
@[simp] theorem start_output (prog : Memory) (a b c : Word) :
    (start prog a b c).output = [] := rfl
@[simp] theorem start_program (prog : Memory) (a b c : Word) :
    (start prog a b c).program = prog := rfl

end Sys2Proof.Machine
end

