-- ==== Sys2Proof/Laws/Ops.lean ====
section
/-! SUPPORT. What each shared operation can do, said once. -/

namespace Sys2Proof.Machine

/-! ### Operands -/

@[simp] theorem combo_lit (v : BitVec 2) (s : State) : combo (.lit v) s = some (v.setWidth 64) := rfl
@[simp] theorem combo_reg (r : Reg) (s : State) : combo (.reg r) s = some (readReg s r) := rfl
@[simp] theorem combo_reserved (s : State) : combo .reserved s = none := rfl

/-- Only the reserved operand has no value (R51, R52). -/
theorem combo_eq_none {x : Combo} {s : State} : combo x s = none ↔ x = .reserved := by
  cases x <;> simp

/-- A combo literal is never negative. -/
theorem toInt_lit (v : BitVec 2) : (v.setWidth 64).toInt = (v.toNat : Int) := by
  revert v; decide

theorem toInt_zext64 (x : Cell) : (zext64 x).toInt = (x.toNat : Int) := by
  revert x; decide

/-- A negative combo value comes from a register. -/
theorem combo_negative {x : Combo} {s : State} {e : Word} (h : combo x s = some e) (he : e.toInt < 0) :
    ∃ r, x = .reg r ∧ e = readReg s r := by
  rcases x with v | r | _
  · obtain rfl := Option.some.inj h
    rw [toInt_lit] at he
    omega
  · exact ⟨r, rfl, (Option.some.inj h).symm⟩
  · cases h

/-- Everything an instruction in combo mode can do. -/
theorem withCombo_cases {i : Instr} {x : Combo} {s t : State} {effect : Word → State}
    (h : withCombo i x s effect = .next t) :
    (x = .reserved ∧ t = raiseIn i .invalidComboOperand s) ∨ ∃ v, combo x s = some v ∧ t = effect v := by
  unfold withCombo at h
  split at h
  · rename_i hx
    exact .inl ⟨combo_eq_none.1 hx, (Host.Outcome.next.inj h).symm⟩
  · rename_i v hv
    exact .inr ⟨v, hv, (Host.Outcome.next.inj h).symm⟩

theorem withCombo_some {i : Instr} {x : Combo} {s : State} {v : Word} {effect : Word → State}
    (h : combo x s = some v) : withCombo i x s effect = .next (effect v) := by
  simp [withCombo, h]

@[simp] theorem withCombo_reserved (i : Instr) (s : State) (effect : Word → State) :
    withCombo i .reserved s effect = .next (raiseIn i .invalidComboOperand s) := rfl

/-! ### Division -/

theorem isNegative_iff {v : Word} : isNegative v = true ↔ v.toInt < 0 := by
  simp [isNegative]

theorem isNonZero_iff {v : Word} : isNonZero v = true ↔ v ≠ 0 := by
  simp [isNonZero]

/-- On a value that is not negative the pattern and the integer agree. -/
theorem toNat_of_nonneg {v : Word} (h : 0 ≤ v.toInt) : (v.toNat : Int) = v.toInt := by
  have := v.isLt
  rw [BitVec.toInt_eq_toNat_cond] at *
  split at h
  · simp_all
  · omega

theorem divPow2_negative {a e : Word} (h : e.toInt < 0) : divPow2 a e = none := by
  simp [divPow2, isNegative_iff.2 h]

/-- The two ways the quotient is written (R78). -/
theorem divPow2_nonneg {a e : Word} (h : 0 ≤ e.toInt) :
    divPow2 a e =
      if 64 ≤ e.toNat then some 0 else some (BitVec.ofInt 64 (truncDiv a.toInt (2 ^ e.toNat))) := by
  have : isNegative e = false := by simpa [isNegative] using h
  simp [divPow2, this]

/-- Everything a division can do. -/
theorem divideInto_cases {dst : Reg} {i : Instr} {x : Combo} {s t : State} (h : divideInto dst i x s = .next t) :
    (x = .reserved ∧ t = raiseIn i .invalidComboOperand s) ∨
    (∃ e, combo x s = some e ∧ e.toInt < 0 ∧ t = raiseIn i .arithmeticAnomaly s) ∨
    (∃ e q, combo x s = some e ∧ 0 ≤ e.toInt ∧ divPow2 s.a e = some q ∧
      t = retire .advance (writeReg dst q s)) := by
  rcases withCombo_cases h with h | ⟨e, he, h⟩
  · exact .inl h
  · by_cases hn : e.toInt < 0
    · rw [divPow2_negative hn] at h
      exact .inr (.inl ⟨e, he, hn, h⟩)
    · have hn : 0 ≤ e.toInt := not_lt.1 hn
      have hq : ∃ q, divPow2 s.a e = some q := by
        rw [divPow2_nonneg hn]
        split <;> exact ⟨_, rfl⟩
      obtain ⟨q, hq⟩ := hq
      rw [hq] at h
      exact .inr (.inr ⟨e, q, he, hn, hq, h⟩)

/-! ### Execution -/

/-- Everything an executed instruction can do (R65, R68, R95): it faults and changes nothing else, it writes one register
and advances, it emits and advances, or it jumps or advances as JNZ. -/
theorem exec_cases {i : Instr} {s t : State} (h : exec i s = .next t) :
    (∃ code, t = raiseIn i code s ∧
      ((i.wellFormed = false ∧ code = .invalidComboOperand) ∨
        (code = .arithmeticAnomaly ∧
          ∃ x e, (i = .adv x ∨ i = .bdv x ∨ i = .cdv x) ∧ combo x s = some e ∧ e.toInt < 0))) ∨
    (∃ x e q, combo x s = some e ∧ 0 ≤ e.toInt ∧ divPow2 s.a e = some q ∧
      ((i = .adv x ∧ t = retire .advance (writeReg .a q s)) ∨ (i = .bdv x ∧ t = retire .advance (writeReg .b q s)) ∨
        (i = .cdv x ∧ t = retire .advance (writeReg .c q s)))) ∨
    (∃ x, i = .bxl x ∧ t = retire .advance (writeReg .b (xorWords s.b (literal x)) s)) ∨
    (∃ x v, i = .bst x ∧ combo x s = some v ∧ t = retire .advance (writeReg .b (zext64 (mod8 v)) s)) ∨
    (∃ x, i = .bxc x ∧ t = retire .advance (writeReg .b (xorWords s.b s.c) s)) ∨
    (∃ x v, i = .out x ∧ combo x s = some v ∧ t = retire .advance (emit (mod8 v) s)) ∨
    (∃ x, i = .jnz x ∧ s.a ≠ 0 ∧ t = retire (.jumpTo (literal x).toNat) s) ∨
    (∃ x, i = .jnz x ∧ s.a = 0 ∧ t = retire .advance s) := by
  cases i with
  | adv x =>
    rcases divideInto_cases h with ⟨rfl, rfl⟩ | ⟨e, he, hn, rfl⟩ | ⟨e, q, he, hn, hq, rfl⟩
    · exact .inl ⟨_, rfl, .inl ⟨rfl, rfl⟩⟩
    · exact .inl ⟨_, rfl, .inr ⟨rfl, x, e, .inl rfl, he, hn⟩⟩
    · exact .inr (.inl ⟨x, e, q, he, hn, hq, .inl ⟨rfl, rfl⟩⟩)
  | bdv x =>
    rcases divideInto_cases h with ⟨rfl, rfl⟩ | ⟨e, he, hn, rfl⟩ | ⟨e, q, he, hn, hq, rfl⟩
    · exact .inl ⟨_, rfl, .inl ⟨rfl, rfl⟩⟩
    · exact .inl ⟨_, rfl, .inr ⟨rfl, x, e, .inr (.inl rfl), he, hn⟩⟩
    · exact .inr (.inl ⟨x, e, q, he, hn, hq, .inr (.inl ⟨rfl, rfl⟩)⟩)
  | cdv x =>
    rcases divideInto_cases h with ⟨rfl, rfl⟩ | ⟨e, he, hn, rfl⟩ | ⟨e, q, he, hn, hq, rfl⟩
    · exact .inl ⟨_, rfl, .inl ⟨rfl, rfl⟩⟩
    · exact .inl ⟨_, rfl, .inr ⟨rfl, x, e, .inr (.inr rfl), he, hn⟩⟩
    · exact .inr (.inl ⟨x, e, q, he, hn, hq, .inr (.inr ⟨rfl, rfl⟩)⟩)
  | bxl x => exact .inr (.inr (.inl ⟨x, rfl, (Host.Outcome.next.inj h).symm⟩))
  | bst x =>
    rcases withCombo_cases h with ⟨rfl, rfl⟩ | ⟨v, hv, rfl⟩
    · exact .inl ⟨_, rfl, .inl ⟨rfl, rfl⟩⟩
    · exact .inr (.inr (.inr (.inl ⟨x, v, rfl, hv, rfl⟩)))
  | bxc x => exact .inr (.inr (.inr (.inr (.inl ⟨x, rfl, (Host.Outcome.next.inj h).symm⟩))))
  | out x =>
    rcases withCombo_cases h with ⟨rfl, rfl⟩ | ⟨v, hv, rfl⟩
    · exact .inl ⟨_, rfl, .inl ⟨rfl, rfl⟩⟩
    · exact .inr (.inr (.inr (.inr (.inr (.inl ⟨x, v, rfl, hv, rfl⟩)))))
  | jnz x =>
    obtain rfl := (Host.Outcome.next.inj h).symm
    by_cases ha : s.a = 0
    · exact .inr (.inr (.inr (.inr (.inr (.inr (.inr ⟨x, rfl, ha, by simp [isNonZero, ha]⟩))))))
    · exact .inr (.inr (.inr (.inr (.inr (.inr (.inl ⟨x, rfl, ha, if_pos (isNonZero_iff.2 ha)⟩))))))

end Sys2Proof.Machine
end

