-- ==== Sys2Proof/Laws/Memory.lean ====
section
/-! SUPPORT. Program memory: what a read gives, and that every operation on it keeps its cells u3 values. -/

namespace Sys2Proof.Machine

theorem memRead_eq_none {m : Memory} {i : Nat} : memRead m i = none ↔ m.length ≤ i := by
  simp [memRead]

theorem memRead_lt {m : Memory} {i : Nat} {v : Int} (h : memRead m i = some v) : i < m.length :=
  (List.getElem?_eq_some_iff.1 h).1

theorem Memory.wf_iff {m : Memory} : Memory.wf m = true ↔ ∀ v ∈ m, 0 ≤ v ∧ v ≤ 7 := by
  simp [Memory.wf]

theorem reset_memory_wf : Memory.wf State.reset.program = true := rfl

/-- A read cell of a well-formed memory is a cell. -/
theorem memRead_wf {m : Memory} (h : Memory.wf m = true) {i : Nat} {v : Int} (hv : memRead m i = some v) :
    ∃ x, cellOfInt v = some x ∧ v = intOfCell x := by
  have hm := Memory.wf_iff.1 h v (List.mem_of_getElem? hv)
  cases hc : cellOfInt v with
  | none => have := cellOfInt_eq_none.1 hc; omega
  | some x => exact ⟨x, rfl, cellOfInt_eq_some.1 hc⟩

theorem putCell_same (m : Memory) (i : Nat) (v : Int) : memRead (putCell m i v) i = some v := by
  induction i generalizing m with
  | zero => cases m <;> rfl
  | succ k ih => cases m <;> exact ih _

theorem putCell_other (m : Memory) (i j : Nat) (v : Int) (h : j < i) (hj : j < m.length) :
    memRead (putCell m i v) j = memRead m j := by
  induction i generalizing m j with
  | zero => omega
  | succ k ih =>
    cases m with
    | nil => simp at hj
    | cons c t =>
      cases j with
      | zero => rfl
      | succ n => exact ih t n (by omega) (by simpa using hj)

theorem putCell_wf {m : Memory} (i : Nat) {v : Int} (hm : Memory.wf m = true) (hv : 0 ≤ v ∧ v ≤ 7) :
    Memory.wf (putCell m i v) = true := by
  induction i generalizing m with
  | zero => cases m <;> simp_all [putCell, Memory.wf]
  | succ k ih =>
    cases m with
    | nil => simpa [putCell, Memory.wf] using ih (m := []) rfl
    | cons c t =>
      simp only [Memory.wf, List.all_cons, Bool.and_eq_true] at hm
      simp only [putCell, Memory.wf, List.all_cons, Bool.and_eq_true]
      exact ⟨hm.1, ih hm.2⟩

theorem padEven_wf {m : Memory} (hm : Memory.wf m = true) : Memory.wf (padEven m) = true := by
  unfold padEven
  split
  · exact hm
  · simp_all [Memory.wf]

theorem padEven_read (m : Memory) (i : Nat) (h : i < m.length) : memRead (padEven m) i = memRead m i := by
  unfold padEven
  split
  · rfl
  · simp [memRead, List.getElem?_append_left h]

theorem placePair_memory_wf {op x : Int} {s : State} (hs : Memory.wf s.program = true) (hop : 0 ≤ op ∧ op ≤ 7)
    (hx : 0 ≤ x ∧ x ≤ 7) : Memory.wf (placePair op x s).program = true :=
  padEven_wf (putCell_wf _ (putCell_wf _ hs hop) hx)

/-- Where a placed pair stands. -/
theorem placePair_fetch (op x : Int) (s : State) : fetch (placePair op x s) = .pair op x := by
  have h1 : memRead (putCell (putCell s.program s.ip op) (s.ip + 1) x) (s.ip + 1) = some x := putCell_same _ _ _
  have h0 : memRead (putCell (putCell s.program s.ip op) (s.ip + 1) x) s.ip = some op := by
    rw [putCell_other _ _ _ _ (by omega) (memRead_lt (putCell_same s.program s.ip op))]
    exact putCell_same _ _ _
  simp [fetch, placePair, padEven_read _ _ (memRead_lt h1), padEven_read _ _ (memRead_lt h0), h0, h1]

/-- No instruction writes program memory (R45). -/
theorem exec_program {i : Instr} {s t : State} (h : exec i s = .next t) : t.program = s.program := by
  rcases exec_cases h with ⟨_, rfl, _⟩ | ⟨_, _, _, _, _, _, ⟨_, rfl⟩ | ⟨_, rfl⟩ | ⟨_, rfl⟩⟩ | ⟨_, _, rfl⟩ |
    ⟨_, _, _, _, rfl⟩ | ⟨_, _, rfl⟩ | ⟨_, _, _, _, rfl⟩ | ⟨_, _, _, rfl⟩ | ⟨_, _, _, rfl⟩ <;> simp

theorem exec_memory_wf {i : Instr} {s t : State} (h : exec i s = .next t) (hs : Memory.wf s.program = true) :
    Memory.wf t.program = true := exec_program h ▸ hs

theorem start_memory_wf {prog : Memory} (a b c : Word) (h : Memory.wf prog = true) :
    Memory.wf (start prog a b c).program = true := h

/-- The check of START, in the words of R90. -/
theorem validProgram_iff {m : Memory} :
    validProgram m = true ↔ m.length ≠ 0 ∧ m.length % 2 = 0 ∧ ∀ v ∈ m, 0 ≤ v ∧ v ≤ 7 := by
  rw [← Memory.wf_iff]
  simp [validProgram, and_assoc]

end Sys2Proof.Machine
end

