-- ==== Sys2Proof/Laws/PerInstr.lean ====
section
/-! SUPPORT. Statements about every instruction as syntax, one lemma for each constructor. -/

namespace Sys2Proof.Laws

/-- The two cells of the encoding are u3 values, the operand cell is 7 in combo mode where the instruction is not well
formed, and the table word of R48 holds the opcode in w[5:3] and the operand in w[2:0]. -/
def EncodesToCells.Statement (i : Instr) : Prop :=
  (∀ v ∈ encode i, 0 ≤ v ∧ v ≤ 7) ∧ (i.wellFormed = false → i.mode = .combo ∧ i.operandCell = 7) ∧
    encodeTableWord i / 8 = i.opcodeCell.toNat ∧ encodeTableWord i % 8 = i.operandCell.toNat

/-- Any two cells give a table word with the opcode above the operand. -/
theorem tableWord_fields (op x : Cell) :
    (∀ v ∈ [intOfCell op, intOfCell x], 0 ≤ v ∧ v ≤ 7) ∧ (op.toNat * 8 + x.toNat) / 8 = op.toNat ∧
      (op.toNat * 8 + x.toNat) % 8 = x.toNat := by
  have := op.isLt
  have := x.isLt
  refine ⟨?_, by omega, by omega⟩
  simp only [List.mem_cons, List.not_mem_nil, or_false, intOfCell]
  rintro v (rfl | rfl) <;> omega

/-- Only the reserved combo operand is not well formed, and its cell is 7 (R52). -/
theorem reserved_cell {x : Combo} (h : x.wellFormed = false) : x.cell = 7 := by
  cases x <;> simp_all [Combo.wellFormed, Combo.cell]

theorem EncodesToCells.adv (x : Combo) : EncodesToCells.Statement (.adv x) :=
  ⟨(tableWord_fields _ _).1, fun h => ⟨rfl, reserved_cell h⟩, (tableWord_fields _ _).2⟩

theorem EncodesToCells.bxl (x : Cell) : EncodesToCells.Statement (.bxl x) :=
  ⟨(tableWord_fields _ _).1, (fun h => Bool.noConfusion h), (tableWord_fields _ _).2⟩

theorem EncodesToCells.bst (x : Combo) : EncodesToCells.Statement (.bst x) :=
  ⟨(tableWord_fields _ _).1, fun h => ⟨rfl, reserved_cell h⟩, (tableWord_fields _ _).2⟩

theorem EncodesToCells.jnz (x : Cell) : EncodesToCells.Statement (.jnz x) :=
  ⟨(tableWord_fields _ _).1, (fun h => Bool.noConfusion h), (tableWord_fields _ _).2⟩

theorem EncodesToCells.bxc (x : Cell) : EncodesToCells.Statement (.bxc x) :=
  ⟨(tableWord_fields _ _).1, (fun h => Bool.noConfusion h), (tableWord_fields _ _).2⟩

theorem EncodesToCells.out (x : Combo) : EncodesToCells.Statement (.out x) :=
  ⟨(tableWord_fields _ _).1, fun h => ⟨rfl, reserved_cell h⟩, (tableWord_fields _ _).2⟩

theorem EncodesToCells.bdv (x : Combo) : EncodesToCells.Statement (.bdv x) :=
  ⟨(tableWord_fields _ _).1, fun h => ⟨rfl, reserved_cell h⟩, (tableWord_fields _ _).2⟩

theorem EncodesToCells.cdv (x : Combo) : EncodesToCells.Statement (.cdv x) :=
  ⟨(tableWord_fields _ _).1, fun h => ⟨rfl, reserved_cell h⟩, (tableWord_fields _ _).2⟩

end Sys2Proof.Laws
end

