-- ==== Sys2Proof/Laws/Step.lean ====
section
/-! SUPPORT. What a step can do, said once, and the induction over the cycles of a run. -/

namespace Sys2Proof.Machine

/-- What the fetch finds, in terms of N (R63, R64). -/
theorem fetch_cases (s : State) :
    (fetch s = .pastEnd ∧ s.program.length ≤ s.ip) ∨
    (∃ op, fetch s = .noOperand op ∧ s.ip + 1 = s.program.length ∧ memRead s.program s.ip = some op) ∨
    (∃ op x, fetch s = .pair op x ∧ s.ip + 1 < s.program.length ∧ memRead s.program s.ip = some op ∧
      memRead s.program (s.ip + 1) = some x) := by
  unfold fetch
  cases h0 : memRead s.program s.ip with
  | none => exact .inl ⟨rfl, memRead_eq_none.1 h0⟩
  | some op =>
    have hlt := memRead_lt h0
    cases h1 : memRead s.program (s.ip + 1) with
    | none =>
      have := memRead_eq_none.1 h1
      exact .inr (.inl ⟨op, rfl, by omega, rfl⟩)
    | some x => exact .inr (.inr ⟨op, x, rfl, memRead_lt h1, rfl, rfl⟩)

/-- Everything a step that answers a next state can do (R61, R62): it started RUNNING, and it halted, missed the operand
cell, or executed the instruction at ip. -/
theorem step_cases {s t : State} (h : step s = .next t) :
    s.status = .running ∧
    ((s.program.length ≤ s.ip ∧ nextInstr s = none ∧ t = halt s) ∨
      (∃ op, s.ip + 1 = s.program.length ∧ memRead s.program s.ip = some (intOfCell op) ∧ nextInstr s = none ∧
        t = raise .operandFetchOutOfRange (some op) none s) ∨
      (∃ i, s.ip + 1 < s.program.length ∧ nextInstr s = some i ∧ exec i s = .next t)) := by
  unfold step cycle at h
  cases hs : s.status with
  | halted => rw [hs] at h; cases h
  | faulted => rw [hs] at h; cases h
  | running =>
    rw [hs] at h
    refine ⟨rfl, ?_⟩
    simp only [runningCycle] at h
    rcases fetch_cases s with ⟨hf, hl⟩ | ⟨op, hf, hl, hr⟩ | ⟨op, x, hf, hl, hr, hr1⟩
    · rw [hf] at h
      exact .inl ⟨hl, by simp [nextInstr, hs, hf], (Host.Outcome.next.inj h).symm⟩
    · rw [hf] at h
      cases hc : cellOfInt op with
      | none => simp [hc] at h
      | some o =>
        simp only [hc] at h
        exact .inr (.inl ⟨o, hl, by rw [hr, cellOfInt_eq_some.1 hc], by simp [nextInstr, hs, hf],
          (Host.Outcome.next.inj h).symm⟩)
    · rw [hf] at h
      cases hd : decode [op, x] with
      | error e => simp [hd] at h
      | ok i =>
        simp only [hd] at h
        exact .inr (.inr ⟨i, hl, by simp [nextInstr, hs, hf, hd], h⟩)

/-- A property that every step keeps holds after any number of cycles. -/
theorem runCycles_induction {P : State → Prop} (hstep : ∀ s t, P s → step s = .next t → P t) (k : Nat) (s : State)
    (hs : P s) : P (runCycles k s) := by
  induction k generalizing s with
  | zero => exact hs
  | succ k ih =>
    unfold runCycles
    split
    · rename_i t ht
      exact ih t (hstep s t hs ht)
    · exact hs
    · exact hs

/-- Every step keeps the cells of program memory u3 values. -/
theorem step_memory_wf {s t : State} (h : step s = .next t) (hs : Memory.wf s.program = true) :
    Memory.wf t.program = true := by
  obtain ⟨-, ⟨-, -, rfl⟩ | ⟨_, -, -, -, rfl⟩ | ⟨_, -, -, h⟩⟩ := step_cases h
  · exact hs
  · exact hs
  · exact exec_memory_wf h hs

end Sys2Proof.Machine
end

