-- ==== Sys2Proof/Tests/Slice0.lean ====
section
/-! SUPPORT. Small tests of the model, each about one word or one step, and a witness for the hypotheses of each statement.
Expected results are the spec's: the vectors V-* and S* of 95_test_vectors.md, the tables of 30_encoding.md. -/

namespace Sys2Proof.Tests

open Sys2Proof.Machine Sys2Proof.Safety

/-- START with integers for the registers. -/
def boot (prog : Memory) (a b c : Int) : State :=
  start prog (BitVec.ofInt 64 a) (BitVec.ofInt 64 b) (BitVec.ofInt 64 c)

/-- The next state, if there is one. -/
def after : Result → Option State
  | .next t => some t
  | .fault _ => none
  | .refused _ => none

/-- A, B, C, ip and STATUS after one step. -/
def sees (s : State) : Option (Int × Int × Int × Nat × Status) :=
  (after (step s)).map fun t => (t.a.toInt, t.b.toInt, t.c.toInt, t.ip, t.status)

/-- Output and ip after one step. -/
def emits (s : State) : Option (List Nat × Nat) :=
  (after (step s)).map fun t => (t.output.map BitVec.toNat, t.ip)

/-- The fault record after one step, by the numbers of R24, with ip. -/
def records (s : State) : Option (Nat × Option Nat × Option Cell × Option Cell × Nat) :=
  (after (step s)).map fun t => (t.faultCode.number, t.faultIp, t.faultOpcode, t.faultOperand, t.ip)

/-! ### WellFormed refuses each reserved encoding (R55) -/

theorem test_wellFormed_refuses_adv7 : Instr.wellFormed (.adv .reserved) = false := by decide
theorem test_wellFormed_refuses_bst7 : Instr.wellFormed (.bst .reserved) = false := by decide
theorem test_wellFormed_refuses_out7 : Instr.wellFormed (.out .reserved) = false := by decide
theorem test_wellFormed_refuses_bdv7 : Instr.wellFormed (.bdv .reserved) = false := by decide
theorem test_wellFormed_refuses_cdv7 : Instr.wellFormed (.cdv .reserved) = false := by decide
theorem test_wellFormed_accepts_bxl7_jnz7_bxc7 :
    Instr.wellFormed (.bxl 7) = true ∧ Instr.wellFormed (.jnz 7) = true ∧ Instr.wellFormed (.bxc 7) = true := by decide

/-! ### A word of each constructor, from the patterns of R54 with the operand bits of R48 -/

theorem test_decode_adv1 : decodeTableWord 8 0b000001 = some (.adv (.lit 1)) := by decide
theorem test_decode_bxl7 : decodeTableWord 8 0b001111 = some (.bxl 7) := by decide
theorem test_decode_bst6 : decodeTableWord 8 0b010110 = some (.bst (.reg .c)) := by decide
theorem test_decode_jnz5 : decodeTableWord 8 0b011101 = some (.jnz 5) := by decide
theorem test_decode_bxc7 : decodeTableWord 8 0b100111 = some (.bxc 7) := by decide
theorem test_decode_out4 : decodeTableWord 8 0b101100 = some (.out (.reg .a)) := by decide
theorem test_decode_bdv5 : decodeTableWord 8 0b110101 = some (.bdv (.reg .b)) := by decide
theorem test_decode_cdv3 : decodeTableWord 8 0b111011 = some (.cdv (.lit 3)) := by decide
theorem test_decode_all_ones_is_cdv7 : decodeTableWord 8 0b111111 = some (.cdv .reserved) := by decide
theorem test_decode_refuses_a_seventh_bit : decodeTableWord 8 0b1000000 = none := by decide
theorem test_decode_refuses_cell8 : decode [0, 8] = .error (.operandOutOfRange 8) := by decide
theorem test_decode_refuses_negative_cell : decode [-1, 5] = .error (.opcodeOutOfRange (-1)) := by decide
theorem test_encode_jnz5 : encode (.jnz 5) = [3, 5] := by decide

/-! ### One step of each instruction -/

-- V-ADV-5 and V-ADV-8
theorem test_adv_truncates_toward_zero : sees (boot [0, 1] (-7) 0 0) = some (-3, 0, 0, 2, .running) := by decide
theorem test_adv_exponent63 : sees (boot [0, 5] (-(2 ^ 63)) 63 0) = some (-1, 63, 0, 2, .running) := by decide
-- V-BDV-2 and V-BDV-4
theorem test_bdv_old_b_is_exponent : sees (boot [6, 5] 64 3 0) = some (64, 8, 0, 2, .running) := by decide
theorem test_bdv_truncates_toward_zero : sees (boot [6, 2] (-9) 0 0) = some (-9, -2, 0, 2, .running) := by decide
-- V-CDV-1 and V-CDV-3
theorem test_cdv_keeps_a : sees (boot [7, 5] 117440 3 0) = some (117440, 3, 14680, 2, .running) := by decide
theorem test_cdv_exponent64 : sees (boot [7, 5] 12345 64 9) = some (12345, 64, 0, 2, .running) := by decide
-- V-BXL-3 and V-BXL-5
theorem test_bxl_negative_b : sees (boot [1, 7] 0 (-1) 0) = some (0, -8, 0, 2, .running) := by decide
theorem test_bxl_most_negative_b :
    sees (boot [1, 1] 0 (-(2 ^ 63)) 0) = some (0, -9223372036854775807, 0, 2, .running) := by decide
-- V-BST-5 and V-BST-6
theorem test_bst_negative_a : sees (boot [2, 4] (-9) 0 0) = some (-9, 7, 0, 2, .running) := by decide
theorem test_bst_b_into_b : sees (boot [2, 5] 0 29 0) = some (0, 5, 0, 2, .running) := by decide
-- V-BXC-3 and V-BXC-4
theorem test_bxc_negative_c : sees (boot [4, 1] 0 5 (-1)) = some (0, -6, -1, 2, .running) := by decide
theorem test_bxc_ignores_operand7 : sees (boot [4, 7] 0 6 3) = some (0, 5, 3, 2, .running) := by decide
-- V-JNZ-3 and V-JNZ-1
theorem test_jnz_negative_a_jumps_past_the_end : sees (boot [3, 4] (-1) 0 0) = some (-1, 0, 0, 4, .running) := by decide
theorem test_jnz_zero_a_advances : sees (boot [3, 0] 0 0 0) = some (0, 0, 0, 2, .running) := by decide
-- V-OUT-4 and V-OUT-5
theorem test_out_negative_b : emits (boot [5, 5] 0 (-3) 0) = some ([5], 2) := by decide
theorem test_out_c : emits (boot [5, 6] 0 0 15) = some ([7], 2) := by decide

/-! ### Faults, the halt, START -/

-- V-ADV-9, V-BDV-7, V-OUT-6 (its second instruction), V-JNZ-5 (its last cycle)
theorem test_fault_combo7 : records (boot [0, 7] 8 0 0) = some (2, some 0, some 0, some 7, 0) := by decide
theorem test_fault_negative_exponent : records (boot [6, 6] 100 0 (-2)) = some (3, some 0, some 6, some 6, 0) := by decide
theorem test_fault_keeps_output :
    (after (step { boot [5, 1, 5, 7] 0 0 0 with ip := 2, output := [1] })).map (fun t => (t.output, t.faultIp, t.status))
      = some ([1], some 2, .faulted) := by decide
theorem test_fault_missing_operand :
    records { boot [3, 1, 5, 4] 1 5 0 with ip := 3 } = some (4, some 3, some 4, none, 3) := by decide
-- V-CYC-7: the halt cycle changes nothing but STATUS
theorem test_halt_at_the_end : sees { boot [1, 0] 5 6 7 with ip := 2 } = some (5, 6, 7, 2, .halted) := by decide
-- V-CYC-1 to V-CYC-4: START refuses a malformed program
theorem test_start_malformed :
    [([] : Memory), [0], [0, 8], [5, -1]].map (fun p => ((boot p 1 2 3).status, (boot p 1 2 3).faultCode.number))
      = [(.faulted, 1), (.faulted, 1), (.faulted, 1), (.faulted, 1)] := by decide
-- R71's examples, R70's examples
theorem test_xor_examples :
    (xorWords 29 7).toInt = 26 ∧ (xorWords 2024 43690).toInt = 44354 ∧ (xorWords (-1) 7).toInt = -8 := by decide
theorem test_mod8_examples :
    mod8 9 = 1 ∧ mod8 (-1) = 7 ∧ mod8 (-8) = 0 ∧ mod8 (-9) = 7 ∧ mod8 (BitVec.ofInt 64 (-(2 ^ 63))) = 0 := by decide
-- R23, R24: the numbers of D15
theorem test_status_and_fault_numbers :
    [Status.running, .halted, .faulted].map Status.number = [0, 1, 2] ∧
    [FaultCode.noFault, .malformedProgram, .invalidComboOperand, .arithmeticAnomaly, .operandFetchOutOfRange].map
      FaultCode.number = [0, 1, 2, 3, 4] := by decide
-- R11, R74: what the host reads while RUNNING and at the end
theorem test_end_state_is_readable_at_the_end :
    endRegisters (boot [1, 0] 5 6 7) = none ∧ result (boot [1, 0] 5 6 7) = none ∧
    endRegisters (halt (boot [1, 0] 5 6 7)) = some (5, 6, 7, 0) ∧
    result (halt (boot [1, 0] 5 6 7)) = some (.output []) ∧
    result (boot [0] 5 6 7) = some (.fault .malformedProgram none none none) := by decide
-- The instruction placed after reset is the one that runs (log 3)
theorem test_placed_word_runs_after_reset :
    (after (step (State.reset.withFetchWord 8 0b101011))).map (fun t => (t.output, t.ip, t.status))
      = some ([3], 2, .running) := by decide
theorem test_placed_word_past_the_end :
    (State.reset.withFetchWord 8 0b101011).program = [5, 3] ∧
    ({ State.reset with ip := 3 }.withFetchWord 8 0b101011).program = [0, 0, 0, 5, 3, 0] := by decide

/-! ### Witnesses: a state and operands that meet the hypotheses of each statement, clause by clause -/

/-- The start of a valid program meets the invariant, whatever the program and the registers. -/
theorem start_runInv (prog : Memory) (a b c : Word) (h : validProgram prog = true) : RunInv (start prog a b c) :=
  ⟨by simp [h], by simp [h], by simp, by simp [h],
    ⟨by simp [h], by simp [h], by simp, by simp [h], by simp [h], by simp [h]⟩⟩

theorem witness_EncodeOfDecodeIsTheCells : decode [7, 7, 0] = .ok (.cdv .reserved) := by decide
theorem witness_OperandModeIsFixedByTheOpcode :
    decode [intOfCell 7, intOfCell 7] = .ok (.cdv .reserved) ∧ decode [intOfCell 1, intOfCell 7] = .ok (.bxl 7) ∧
    decode [intOfCell 4, intOfCell 7] = .ok (.bxc 7) := by decide
theorem witness_LiteralOperandIsTheCellItself :
    (∃ s s' t t' : State, s.a ≠ 0 ∧ s'.a ≠ 0 ∧ s.a ≠ s'.a ∧ exec (.jnz 7) s = .next t ∧ exec (.jnz 7) s' = .next t') ∧
    ∃ s s' t t' : State, s.b ≠ s'.b ∧ exec (.bxl 7) s = .next t ∧ exec (.bxl 7) s' = .next t' :=
  ⟨⟨boot [3, 7] 1 0 0, boot [3, 7] (-1) 0 0, _, _, by decide, by decide, by decide, rfl, rfl⟩,
    ⟨boot [1, 7] 0 1 0, boot [1, 7] 0 (-1) 0, _, _, by decide, rfl, rfl⟩⟩
theorem witness_PowerOfTwoQuotientIsExact :
    divPow2 (BitVec.ofInt 64 (-(2 ^ 63))) 63 = some (-1) ∧ divPow2 5 64 = some 0 ∧ divPow2 5 (-1) = none ∧
    divPow2 (-7) 1 = some (-3) ∧ divPow2 7 (BitVec.ofInt 64 (2 ^ 63 - 1)) = some 0 := by decide
theorem witness_QuotientAtTheCornerExponents :
    (0 : Word) = 0 ∧ (64 : Int) ≤ (64 : Word).toInt ∧ (63 : Word) = 63 := by decide
theorem witness_ShiftEqualsDivisionOfNonNegativeDividend :
    0 ≤ (BitVec.ofInt 64 (2 ^ 63 - 1)).toInt ∧ 0 ≤ (BitVec.ofInt 64 (2 ^ 63 - 1)).toInt := by decide
theorem witness_AdvDividesAIntoA_BdvDividesAIntoB_CdvDividesAIntoC :
    ∃ (x y z : Combo) (s : State) (e f g : Word), combo x s = some e ∧ 0 ≤ e.toInt ∧ combo y s = some f ∧ 0 ≤ f.toInt ∧
      combo z s = some g ∧ 0 ≤ g.toInt :=
  ⟨.lit 0, .reg .b, .reg .c, boot [0, 0] (-1) 0 64, 0, 0, 64, by decide, by decide, by decide, by decide, by decide,
    by decide⟩
theorem witness_BstStoresModEightInB_OutAppendsModEight :
    ∃ (x : Combo) (s : State) (v : Word), combo x s = some v ∧ v.toInt < 0 :=
  ⟨.reg .c, boot [2, 6] 0 0 (-1), -1, by decide, by decide⟩
theorem witness_JnzTakenSetsIpToTheLiteral : (boot [3, 7] (-1) 0 0).a.toInt ≠ 0 := by decide
theorem witness_JnzNotTakenAdvances : (boot [3, 7] 0 0 0).a.toInt = 0 := by decide
theorem witness_NegativeExponentRaises :
    ∃ (x : Combo) (s : State) (e : Word), combo x s = some e ∧ e.toInt < 0 :=
  ⟨.reg .a, boot [0, 4] (-1) 0 0, -1, by decide, by decide⟩
theorem witness_FaultingCycleChangesNothingElse :
    (∃ s t : State, step s = .next t ∧ t.status = .faulted ∧ t.faultCode = .invalidComboOperand) ∧
    (∃ s t : State, step s = .next t ∧ t.status = .faulted ∧ t.faultCode = .arithmeticAnomaly) ∧
    ∃ s t : State, step s = .next t ∧ t.status = .faulted ∧ t.faultCode = .operandFetchOutOfRange :=
  ⟨⟨boot [0, 7] 8 0 0, _, rfl, by decide, by decide⟩, ⟨boot [0, 4] (-1) 0 0, _, rfl, by decide, by decide⟩,
    ⟨{ boot [3, 1] 1 0 0 with ip := 1 }, _, rfl, by decide, by decide⟩⟩
theorem witness_ChecksOfACycleInOrder_halt :
    ∃ s t : State, RunInv s ∧ s.status = .running ∧ step s = .next t ∧ s.program.length = s.ip :=
  ⟨{ boot [3, 1] 0 0 0 with ip := 2 }, _,
    ⟨by decide, by decide, by decide, by decide, ⟨by decide, by decide, by decide, by decide, by decide, by decide⟩⟩,
    by decide, rfl, by decide⟩
theorem witness_ChecksOfACycleInOrder_missing_operand :
    ∃ s t : State, RunInv s ∧ s.status = .running ∧ step s = .next t ∧ s.ip + 1 = s.program.length :=
  ⟨{ boot [3, 1] 1 0 0 with ip := 1 }, _,
    ⟨by decide, by decide, by decide, by decide, ⟨by decide, by decide, by decide, by decide, by decide, by decide⟩⟩,
    by decide, rfl, by decide⟩
theorem witness_ChecksOfACycleInOrder_execute :
    (∃ s t : State, RunInv s ∧ s.status = .running ∧ step s = .next t ∧ s.ip + 2 = s.program.length ∧
      nextInstr s = some (.adv .reserved)) ∧
    (∃ s t : State, RunInv s ∧ s.status = .running ∧ step s = .next t ∧ s.ip + 2 = s.program.length ∧
      nextInstr s = some (.adv (.reg .a)) ∧ combo (.reg .a) s = some (-1)) ∧
    ∃ s t : State, RunInv s ∧ s.status = .running ∧ step s = .next t ∧ s.ip + 2 = s.program.length ∧
      nextInstr s = some (.adv (.lit 1)) :=
  ⟨⟨boot [0, 7] 8 0 0, _, start_runInv _ _ _ _ (by decide), by decide, rfl, by decide, by decide⟩,
    ⟨boot [0, 4] (-1) 0 0, _, start_runInv _ _ _ _ (by decide), by decide, rfl, by decide, by decide, by decide⟩,
    ⟨boot [0, 1] 8 0 0, _, start_runInv _ _ _ _ (by decide), by decide, rfl, by decide, by decide⟩⟩
theorem witness_NonNegativeRegistersRaiseNoAnomaly_StepKeepsRegistersNonNegative :
    ∃ s t : State, NonNegative s ∧ s.status = .running ∧ s.faultCode = .noFault ∧ step s = .next t ∧ t.a ≠ s.a :=
  ⟨boot [0, 1] 8 0 0, _, by decide, by decide, by decide, rfl, by decide⟩
theorem witness_StepRunsTheDecodedInstruction :
    ∃ (s : State) (op x : Int) (i : Instr), s.status = .running ∧ memRead s.program s.ip = some op ∧
      memRead s.program (s.ip + 1) = some x ∧ decode [op, x] = .ok i ∧ s.ip = 1 :=
  ⟨{ boot [3, 1, 5, 4] 1 0 0 with ip := 1 }, 1, 5, .bxl 5, by decide, by decide, by decide, by decide, by decide⟩
theorem witness_HaltTestAtTheStartOfACycle :
    (∃ s : State, s.status = .running ∧ s.program.length = s.ip) ∧
    (∃ s : State, s.status = .running ∧ s.program.length < s.ip) ∧
    ∃ s t : State, step s = .next t ∧ t.status = .halted :=
  ⟨⟨{ boot [3, 7] 1 0 0 with ip := 2 }, by decide, by decide⟩, ⟨{ boot [3, 7] 1 0 0 with ip := 7 }, by decide, by decide⟩,
    ⟨{ boot [3, 7] 1 0 0 with ip := 7 }, _, rfl, by decide⟩⟩
theorem witness_MissingOperandCellRaises :
    ∃ (s : State) (op : Cell), s.status = .running ∧ s.ip + 1 = s.program.length ∧
      memRead s.program s.ip = some (intOfCell op) :=
  ⟨{ boot [3, 1] 1 0 0 with ip := 1 }, 1, by decide, by decide, by decide⟩
theorem witness_NoCycleOnceTheRunHasEnded :
    (halt (boot [1, 0] 0 0 0)).status = .halted ∧ State.reset.status = .faulted ∧
    ∃ t, step (boot [1, 0] 0 0 0) = .next t := ⟨by decide, by decide, _, rfl⟩
theorem witness_IpAdvancesByTwoOrJumps_RunStateTransitions :
    (∃ s t : State, step s = .next t ∧ t.status = .running ∧ t.ip = 7) ∧
    (∃ s t : State, step s = .next t ∧ t.status = .running ∧ t.ip = s.ip + 2) ∧
    (∃ s t : State, step s = .next t ∧ t.status = .halted) ∧ ∃ s t : State, step s = .next t ∧ t.status = .faulted :=
  ⟨⟨boot [3, 7] 1 0 0, _, rfl, by decide, by decide⟩, ⟨boot [3, 7] 0 0 0, _, rfl, by decide, by decide⟩,
    ⟨{ boot [3, 7] 1 0 0 with ip := 7 }, _, rfl, by decide⟩, ⟨boot [0, 7] 1 0 0, _, rfl, by decide⟩⟩
theorem witness_RegistersReadAndWrittenByTheTable :
    (∃ t, exec (.bdv (.reg .b)) (boot [6, 5] 8 1 3) = .next t) ∧ mayWrite .a (.bdv (.reg .b)) = false ∧
    mayRead .c (.bdv (.reg .b)) = false ∧ mayRead .b (.bst (.reg .c)) = false := ⟨⟨_, rfl⟩, by decide, by decide, by decide⟩
theorem witness_FrameOfEveryInstruction_OnlyOutEmitsAndItAppendsOneDigit :
    (∃ s t : State, exec (.out (.reg .a)) s = .next t ∧ t.output ≠ s.output) ∧
    ∃ s t : State, exec (.jnz 0) s = .next t ∧ (∀ x, Instr.jnz 0 ≠ .out x) ∧ (∀ x, Instr.jnz 0 ≠ .adv x) ∧
      (∀ x, Instr.jnz 0 ≠ .bxl x) ∧ (∀ x, Instr.jnz 0 ≠ .bst x) ∧ (∀ x, Instr.jnz 0 ≠ .bxc x) ∧
      (∀ x, Instr.jnz 0 ≠ .bdv x) ∧ ∀ x, Instr.jnz 0 ≠ .cdv x :=
  ⟨⟨boot [5, 4] 9 0 0, _, rfl, by decide⟩, ⟨boot [3, 0] 0 0 0, _, rfl, by simp⟩⟩
theorem witness_ProgramCellsAreReadBelowN :
    Memory.wf [0, 7] = true ∧ memRead [0, 7] 1 = some 7 ∧ memRead [0, 7] 2 = none := by decide
theorem witness_StartSetsEveryStateItem_valid :
    ∃ prog : Memory, prog.length ≠ 0 ∧ prog.length % 2 = 0 ∧ ∀ v ∈ prog, 0 ≤ v ∧ v ≤ 7 := ⟨[0, 7], by decide⟩
theorem witness_StartSetsEveryStateItem_malformed :
    ([] : Memory).length = 0 ∧ ([0] : Memory).length % 2 = 1 ∧ (∃ v ∈ ([0, -1] : Memory), v < 0 ∨ 7 < v) ∧
    ∃ v ∈ ([8, 0] : Memory), v < 0 ∨ 7 < v := by decide
theorem witness_ResultOfARun :
    (runCycles 0 (boot [1, 0] 0 0 0)).status = .running ∧ (runCycles 2 (boot [1, 0] 0 0 0)).status = .halted ∧
    (runCycles 1 (boot [0, 7] 0 0 0)).status = .faulted := by decide
theorem witness_PlacedTableWordRunsNext : (0 : Nat) < 64 ∧ (63 : Nat) < 64 := by decide
theorem witness_StepKeepsTheInvariant_RunningStateAlwaysSteps :
    ∃ s t : State, RunInv s ∧ s.status = .running ∧ step s = .next t :=
  ⟨boot [5, 4] 9 0 0, _, start_runInv _ _ _ _ (by decide), by decide, rfl⟩
/-- The program JNZ 2, BXL 0 has one jump, to an even target. -/
theorem evenTargets_jnz2 : EvenTargets [3, 2, 1, 0] := by
  intro k x h
  match k, h with
  | 0, h => cases h; decide
  | 1, h => cases h
  | k + 2, h =>
    rw [List.drop_eq_nil_of_le (by simp; omega)] at h
    cases h
theorem witness_EvenTargetsKeepIpEven :
    ∃ s t : State, EvenTargets s.program ∧ s.ip % 2 = 0 ∧ step s = .next t ∧ t.ip = 2 :=
  ⟨boot [3, 2, 1, 0] 1 0 0, _, evenTargets_jnz2, by decide, rfl, by decide⟩
theorem witness_EvenTargetsNeverMissAnOperand : ∃ prog : Memory, EvenTargets prog ∧ validProgram prog = true :=
  ⟨[3, 2, 1, 0], evenTargets_jnz2, by decide⟩
theorem witness_ResultDoesNotDependOnTheBound : run 2 [5, 3] 0 0 0 = some (.output [3]) := by decide
theorem witness_EndedRunTookOneCycleMore :
    validProgram [5, 3] = true ∧ (runCycles 2 (start [5, 3] 0 0 0)).status ≠ .running := by decide

end Sys2Proof.Tests
end

section
/-!
What a state gives as the run's result, an equation per status (R12, R74), and the result of a bounded run.
-/
namespace Sys2Proof.Machine

theorem result_of_halted {s : State} (h : s.status = .halted) : result s = some (.output s.output) := by
  simp only [result, h]

theorem result_of_faulted {s : State} (h : s.status = .faulted) :
    result s = some (.fault s.faultCode s.faultIp s.faultOpcode s.faultOperand) := by
  simp only [result, h]

theorem result_of_running {s : State} (h : s.status = .running) : result s = none := by
  simp only [result, h]

/-- Settles O46: a bounded run's result is that of the state it ends in, which its status decides. -/
theorem resultOfARun : Obligations.ResultOfARun := by
  rintro k prog a b c s rfl
  exact ⟨result_of_halted, result_of_faulted, result_of_running⟩

end Sys2Proof.Machine
end

section
/-!
The table of R16 as a frame and as non-interference: an instruction keeps the registers it does not write, and a register
that it does not read has no effect but to be carried along or overwritten.
-/
namespace Sys2Proof.Machine

open Sys2Proof.Safety

/-! ### The two columns of R16, an equation per instruction -/

section table
variable (r : Reg) (x : Combo) (y : Cell)

@[simp] theorem mayWrite_adv : mayWrite r (.adv x) = decide (r = .a) := by cases r <;> rfl
@[simp] theorem mayWrite_bxl : mayWrite r (.bxl y) = decide (r = .b) := by cases r <;> rfl
@[simp] theorem mayWrite_bst : mayWrite r (.bst x) = decide (r = .b) := by cases r <;> rfl
@[simp] theorem mayWrite_jnz : mayWrite r (.jnz y) = false := by cases r <;> rfl
@[simp] theorem mayWrite_bxc : mayWrite r (.bxc y) = decide (r = .b) := by cases r <;> rfl
@[simp] theorem mayWrite_out : mayWrite r (.out x) = false := by cases r <;> rfl
@[simp] theorem mayWrite_bdv : mayWrite r (.bdv x) = decide (r = .b) := by cases r <;> rfl
@[simp] theorem mayWrite_cdv : mayWrite r (.cdv x) = decide (r = .c) := by cases r <;> rfl

@[simp] theorem mayRead_adv : mayRead r (.adv x) = (decide (r = .a) || comboNames r x) := by cases r <;> rfl
@[simp] theorem mayRead_bxl : mayRead r (.bxl y) = decide (r = .b) := by cases r <;> rfl
@[simp] theorem mayRead_bst : mayRead r (.bst x) = comboNames r x := by cases r <;> rfl
@[simp] theorem mayRead_jnz : mayRead r (.jnz y) = decide (r = .a) := by cases r <;> rfl
@[simp] theorem mayRead_bxc : mayRead r (.bxc y) = (decide (r = .b) || decide (r = .c)) := by cases r <;> rfl
@[simp] theorem mayRead_out : mayRead r (.out x) = comboNames r x := by cases r <;> rfl
@[simp] theorem mayRead_bdv : mayRead r (.bdv x) = (decide (r = .a) || comboNames r x) := by cases r <;> rfl
@[simp] theorem mayRead_cdv : mayRead r (.cdv x) = (decide (r = .a) || comboNames r x) := by cases r <;> rfl

end table

/-! ### A register under the operations, read and written by name -/

section registers
variable {r q : Reg} {v w : Word} {s : State}

@[simp] theorem readReg_retire (ctl : Control) (s : State) (r : Reg) : readReg (retire ctl s) r = readReg s r := by
  cases r <;> simp

@[simp] theorem readReg_emit (d : Cell) (s : State) (r : Reg) : readReg (emit d s) r = readReg s r := by
  cases r <;> rfl

@[simp] theorem readReg_raiseIn (i : Instr) (code : FaultCode) (s : State) (r : Reg) :
    readReg (raiseIn i code s) r = readReg s r := by
  cases r <;> rfl

@[simp] theorem readReg_writeReg_same : readReg (writeReg r v s) r = v := by
  simp [readReg_writeReg]

theorem readReg_writeReg_of_ne (h : q ≠ r) : readReg (writeReg r v s) q = readReg s q := by
  simp [readReg_writeReg, h]

@[simp] theorem writeReg_writeReg_same : writeReg r w (writeReg r v s) = writeReg r w s := by
  cases r <;> rfl

theorem writeReg_comm (h : q ≠ r) : writeReg q w (writeReg r v s) = writeReg r v (writeReg q w s) := by
  cases q <;> cases r <;> simp_all [writeReg]

theorem retire_writeReg (ctl : Control) : retire ctl (writeReg r v s) = writeReg r v (retire ctl s) := by
  cases ctl <;> cases r <;> rfl

theorem emit_writeReg (d : Cell) : emit d (writeReg r v s) = writeReg r v (emit d s) := by
  cases r <;> rfl

theorem raiseIn_writeReg (i : Instr) (code : FaultCode) :
    raiseIn i code (writeReg r v s) = writeReg r v (raiseIn i code s) := by
  cases r <;> rfl

/-- An operand that is not register `r` resolves to the same value whatever `r` holds (R51). -/
theorem combo_writeReg {x : Combo} (h : comboNames r x = false) : combo x (writeReg r v s) = combo x s := by
  cases x with
  | lit n => rfl
  | reserved => rfl
  | reg q =>
    have hq : q ≠ r := by simpa [comboNames] using h
    simp only [combo_reg, readReg_writeReg_of_ne hq]

end registers

/-! ### The frame -/

theorem exec_keeps_unwritten {i : Instr} {s t : State} {r : Reg} (h : exec i s = .next t) (hr : mayWrite r i = false) :
    readReg t r = readReg s r := by
  rcases exec_cases h with ⟨_, rfl, -⟩ | ⟨_, _, _, -, -, -, ⟨rfl, rfl⟩ | ⟨rfl, rfl⟩ | ⟨rfl, rfl⟩⟩ | ⟨_, rfl, rfl⟩ |
    ⟨_, _, rfl, -, rfl⟩ | ⟨_, rfl, rfl⟩ | ⟨_, _, rfl, -, rfl⟩ | ⟨_, rfl, -, rfl⟩ | ⟨_, rfl, -, rfl⟩
  case inl => exact readReg_raiseIn ..
  -- a completed instruction writes at most the register of its own row of the table, and `r` is another one
  all_goals simp_all [readReg_writeReg_of_ne]

/-! ### Non-interference -/

/-- `t'` is what became of `t` when `r` held `v` instead at the start `s`: the same state where `r` was overwritten, and
elsewhere `t`, which kept `r`, with `v` in it. -/
def SameButReg (r : Reg) (v : Word) (s t t' : State) : Prop :=
  t' = t ∨ (readReg t r = readReg s r ∧ t' = writeReg r v t)

section noninterference
variable {r : Reg} {v : Word} {s t t' : State}

theorem SameButReg.rest_eq (h : SameButReg r v s t t') : writeReg r 0 t' = writeReg r 0 t := by
  obtain rfl | ⟨-, rfl⟩ := h
  · rfl
  · exact writeReg_writeReg_same

theorem SameButReg.register (h : SameButReg r v s t t') :
    readReg t' r = readReg t r ∨ (readReg t r = readReg s r ∧ readReg t' r = v) := by
  obtain rfl | ⟨hr, rfl⟩ := h
  · exact .inl rfl
  · exact .inr ⟨hr, readReg_writeReg_same⟩

theorem SameButReg.initial : SameButReg r v s s (writeReg r v s) := .inr ⟨rfl, rfl⟩

theorem SameButReg.raiseIn (i : Instr) (code : FaultCode) :
    SameButReg r v s (raiseIn i code s) (raiseIn i code (writeReg r v s)) :=
  .inr ⟨readReg_raiseIn .., raiseIn_writeReg i code⟩

theorem SameButReg.emit (d : Cell) : SameButReg r v s (emit d s) (emit d (writeReg r v s)) :=
  .inr ⟨readReg_emit .., emit_writeReg d⟩

theorem SameButReg.writeReg (q : Reg) (w : Word) :
    SameButReg r v s (writeReg q w s) (writeReg q w (writeReg r v s)) := by
  by_cases h : q = r
  · subst h
    exact .inl writeReg_writeReg_same
  · exact .inr ⟨readReg_writeReg_of_ne (Ne.symm h), writeReg_comm h⟩

theorem SameButReg.retire (ctl : Control) (h : SameButReg r v s t t') :
    SameButReg r v s (retire ctl t) (retire ctl t') := by
  obtain rfl | ⟨hr, rfl⟩ := h
  · exact .inl rfl
  · exact .inr ⟨by simpa using hr, retire_writeReg ctl⟩

/-- An instruction in combo mode does not interfere where its operand does not name `r` and its effect does not. -/
theorem withCombo_sameButReg {i : Instr} {x : Combo} {effect effect' : Word → State} (hx : comboNames r x = false)
    (heffect : ∀ e, SameButReg r v s (effect e) (effect' e)) (h : withCombo i x s effect = .next t) :
    ∃ t', withCombo i x (writeReg r v s) effect' = .next t' ∧ SameButReg r v s t t' := by
  obtain ⟨rfl, rfl⟩ | ⟨e, he, rfl⟩ := withCombo_cases h
  · exact ⟨_, rfl, .raiseIn i _⟩
  · exact ⟨_, withCombo_some ((combo_writeReg hx).trans he), heffect e⟩

/-- A division does not interfere with a register that is neither the dividend A nor the exponent. -/
theorem divideInto_sameButReg {dst : Reg} {i : Instr} {x : Combo} (ha : r ≠ .a) (hx : comboNames r x = false)
    (h : divideInto dst i x s = .next t) :
    ∃ t', divideInto dst i x (writeReg r v s) = .next t' ∧ SameButReg r v s t t' := by
  refine withCombo_sameButReg hx (fun e => ?_) h
  have hdividend : (writeReg r v s).a = s.a := readReg_writeReg_of_ne ha.symm
  rw [hdividend]
  cases divPow2 s.a e with
  | none => exact .raiseIn i _
  | some q => exact .retire _ (.writeReg dst q)

/-- No instruction lets a register that it does not read reach anything else (R16). -/
theorem exec_sameButReg {i : Instr} (hr : mayRead r i = false) (h : exec i s = .next t) :
    ∃ t', exec i (writeReg r v s) = .next t' ∧ SameButReg r v s t t' := by
  cases i with
  | adv x | bdv x | cdv x =>
    obtain ⟨ha, hx⟩ : r ≠ .a ∧ comboNames r x = false := by simpa using hr
    exact divideInto_sameButReg ha hx h
  | bst x =>
    exact withCombo_sameButReg (by simpa using hr) (fun _ => .retire _ (.writeReg _ _)) h
  | out x =>
    exact withCombo_sameButReg (by simpa using hr) (fun _ => .retire _ (.emit _)) h
  | bxl x =>
    have hb : r ≠ .b := by simpa using hr
    have hb : (writeReg r v s).b = s.b := readReg_writeReg_of_ne hb.symm
    obtain rfl := Host.Outcome.next.inj h
    refine ⟨_, rfl, ?_⟩
    rw [hb]
    exact .retire _ (.writeReg _ _)
  | bxc x =>
    obtain ⟨hb, hc⟩ : r ≠ .b ∧ r ≠ .c := by simpa using hr
    have hb : (writeReg r v s).b = s.b := readReg_writeReg_of_ne hb.symm
    have hc : (writeReg r v s).c = s.c := readReg_writeReg_of_ne hc.symm
    obtain rfl := Host.Outcome.next.inj h
    refine ⟨_, rfl, ?_⟩
    rw [hb, hc]
    exact .retire _ (.writeReg _ _)
  | jnz x =>
    have ha : r ≠ .a := by simpa using hr
    have ha : (writeReg r v s).a = s.a := readReg_writeReg_of_ne ha.symm
    obtain rfl := Host.Outcome.next.inj h
    refine ⟨_, rfl, ?_⟩
    rw [ha]
    split
    · exact .retire _ .initial
    · exact .retire _ .initial

end noninterference

/-- Settles O36: the frame of the "written by" column, and non-interference for the "read by" column. -/
theorem registersReadAndWrittenByTheTable : Obligations.RegistersReadAndWrittenByTheTable := by
  intro i s t h
  refine ⟨fun r hr => exec_keeps_unwritten h hr, fun r v hr => ?_⟩
  obtain ⟨t', ht', hsame⟩ := exec_sameButReg (v := v) hr h
  exact ⟨t', ht', hsame.rest_eq, hsame.register⟩

end Sys2Proof.Machine
end

section
/-!
What an instruction does to Output (R33): an OUT whose operand resolves appends its digit, and nothing else changes it.
-/
namespace Sys2Proof.Machine

/-- The output behaviour of every instruction, with the digit named: `mod8` of the resolved operand (R87). -/
theorem exec_output {i : Instr} {s t : State} (h : exec i s = .next t) :
    t.output = s.output ∨ ∃ x v, i = .out x ∧ combo x s = some v ∧ t.output = s.output ++ [mod8 v] := by
  rcases exec_cases h with ⟨_, rfl, -⟩ | ⟨_, _, _, -, -, -, ⟨-, rfl⟩ | ⟨-, rfl⟩ | ⟨-, rfl⟩⟩ | ⟨_, -, rfl⟩ |
    ⟨_, _, -, -, rfl⟩ | ⟨_, -, rfl⟩ | ⟨x, v, hi, hv, rfl⟩ | ⟨_, -, -, rfl⟩ | ⟨_, -, -, rfl⟩
  -- the one case that emits: an OUT whose operand resolves to `v`
  case inr.inr.inr.inr.inr.inl => exact .inr ⟨x, v, hi, hv, by rw [retire_output, emit_output]⟩
  -- a fault, a register write and a JNZ leave Output alone
  all_goals exact .inl (by simp only [raiseIn_output, retire_output, writeReg_output])

/-- Settles O40: Emit appends its digit, and of all instructions only an OUT that resolves calls it. -/
theorem onlyOutEmitsAndItAppendsOneDigit : Obligations.OnlyOutEmitsAndItAppendsOneDigit := by
  refine ⟨emit_output, fun i s t h => ?_⟩
  rcases exec_output h with hkeep | ⟨x, v, hi, -, hout⟩
  · exact .inl hkeep
  · exact .inr ⟨x, mod8 v, hi, hout⟩

end Sys2Proof.Machine
end

section
/-!
What the two cells of an instruction say about it: the opcode cell gives the operand's mode (R49), and the encoding is a
reserved one where the mode is combo and the operand cell is 7 (R52, R55).
-/
namespace Sys2Proof

@[simp] theorem decode_cells (op x : Cell) (rest : List Int) :
    decode (intOfCell op :: intOfCell x :: rest) = .ok (decodePair op x) :=
  decode_eq_ok.2 ⟨op, x, rest, rfl, rfl⟩

/-- The opcode cell alone gives the mode (R49). -/
theorem Instr.mode_eq_of_opcodeCell (i : Instr) :
    i.mode = if i.opcodeCell = 1 ∨ i.opcodeCell = 3 then .literal else if i.opcodeCell = 4 then .ignored else .combo := by
  cases i <;> rfl

theorem Combo.wellFormed_eq_false {x : Combo} : x.wellFormed = false ↔ x = .reserved := by
  cases x <;> simp [Combo.wellFormed]

/-- Cell 7 encodes the reserved operand and no other, since no two combo operands share a cell. -/
theorem Combo.cell_eq_seven {x : Combo} : x.cell = 7 ↔ x = .reserved :=
  (Function.LeftInverse.injective comboOfCell_cell).eq_iff (b := .reserved)

/-- The reserved encodings in terms of mode and operand cell (R52, R55). -/
theorem Instr.wellFormed_eq_false {i : Instr} : i.wellFormed = false ↔ i.mode = .combo ∧ i.operandCell = 7 := by
  cases i with
  | adv x | bst x | out x | bdv x | cdv x =>
    simp only [Instr.wellFormed, Instr.mode, Instr.operandCell, Combo.wellFormed_eq_false, Combo.cell_eq_seven, true_and]
  | bxl x | jnz x | bxc x =>
    simp [Instr.wellFormed, Instr.mode]

theorem mode_decodePair (op x : Cell) :
    (decodePair op x).mode = if op = 1 ∨ op = 3 then .literal else if op = 4 then .ignored else .combo := by
  rw [Instr.mode_eq_of_opcodeCell, opcodeCell_decodePair]

/-- The five opcodes in combo mode with operand cell 7, as the 6-bit words of R48. -/
theorem reserved_words (op x : Cell) :
    ((if op = 1 ∨ op = 3 then OperandMode.literal else if op = 4 then .ignored else .combo) = .combo ∧ x = 7) ↔
      op.toNat * 8 + x.toNat ∈ [7, 23, 47, 55, 63] := by
  revert op x
  decide

/-- Settles O4: two cells decode to the instruction with that opcode cell, which gives its mode. -/
theorem operandModeIsFixedByTheOpcode : Obligations.OperandModeIsFixedByTheOpcode := by
  intro op x i h
  rw [decode_cells] at h
  obtain rfl := Except.ok.inj h
  exact mode_decodePair op x

/-- Settles O5: the pair decodes, and it is reserved where its mode is combo and its operand cell is 7. -/
theorem everyCellPairIsAnInstruction : Obligations.EveryCellPairIsAnInstruction := by
  intro op x
  refine ⟨decodePair op x, decode_cells op x [], ?_⟩
  rw [Instr.wellFormed_eq_false, mode_decodePair, operandCell_decodePair]
  exact reserved_words op x

/-- Settles O6: the decoder reads past no second cell, and it answers an error where there is none. -/
theorem decoderTakesExactlyTwoCells : Obligations.DecoderTakesExactlyTwoCells := by
  intro op x rest
  have hpair : decode (op :: x :: rest) = decode [op, x] := rfl
  have hone : decode [op] = .error .noOperandCell := rfl
  have hnil : decode [] = .error .noOpcodeCell := rfl
  exact ⟨hpair, by simp [hone], by simp [hnil]⟩

end Sys2Proof
end

section
/-!
What the operand cell stands for when an instruction runs: a literal is the cell itself (R50), a combo operand goes by the
table of R51, and an instruction that resolves the reserved one faults (R52, R91).
-/
namespace Sys2Proof.Machine

/-! ### Literal operands -/

theorem toInt_literal (x : Cell) : (literal x).toInt = (x.toNat : Int) := toInt_zext64 x

theorem toNat_literal (x : Cell) : (literal x).toNat = x.toNat := by
  revert x
  decide

/-- JNZ where A is not 0, as an equation (R85). -/
theorem exec_jnz_taken (x : Cell) {s : State} (ha : s.a ≠ 0) :
    exec (.jnz x) s = .next (retire (.jumpTo (literal x).toNat) s) :=
  congrArg Host.Outcome.next (if_pos (isNonZero_iff.2 ha))

theorem jnz_taken_ip {x : Cell} {s t : State} (ha : s.a ≠ 0) (h : exec (.jnz x) s = .next t) : t.ip = x.toNat := by
  rw [exec_jnz_taken x ha] at h
  obtain rfl := Host.Outcome.next.inj h
  exact toNat_literal x

/-- The bits of B that BXL flips are those of its literal (R82). -/
theorem bxl_flips_literal {x : Cell} {s t : State} (h : exec (.bxl x) s = .next t) : s.b ^^^ t.b = literal x := by
  obtain rfl := Host.Outcome.next.inj h
  calc s.b ^^^ (s.b ^^^ literal x) = (s.b ^^^ s.b) ^^^ literal x := (BitVec.xor_assoc ..).symm
    _ = literal x := by rw [BitVec.xor_self, BitVec.zero_xor]

/-- Settles O9: a taken JNZ goes to its literal and BXL flips its literal's bits, from every state. -/
theorem literalOperandIsTheCellItself : Obligations.LiteralOperandIsTheCellItself := by
  intro x
  refine ⟨toInt_literal x, fun s s' t t' ha ha' h h' => ?_, fun s s' t t' h h' => ?_⟩
  · exact ⟨jnz_taken_ip ha h, jnz_taken_ip ha' h'⟩
  · rw [bxl_flips_literal h, bxl_flips_literal h']

/-! ### Combo operands -/

/-- Below 4 a combo cell stands for itself, as a literal cell does (R51). -/
theorem combo_comboOfCell_of_lt {x : Cell} (hx : x < 4) (s : State) : combo (comboOfCell x) s = some (literal x) := by
  have hcell : comboOfCell x = .lit (x.setWidth 2) := by
    revert x
    decide
  have hvalue : (x.setWidth 2).setWidth 64 = literal x := by
    revert x
    decide
  rw [hcell, combo_lit, hvalue]

/-- A reserved encoding raises InvalidComboOperand, whatever the state (R52, R91). -/
theorem exec_of_not_wellFormed {i : Instr} (hi : i.wellFormed = false) (s : State) :
    exec i s = .next (raiseIn i .invalidComboOperand s) := by
  cases i with
  | adv x | bst x | out x | bdv x | cdv x =>
    obtain rfl : x = .reserved := Combo.wellFormed_eq_false.1 hi
    rfl
  | bxl x | jnz x | bxc x => cases hi

/-- Settles O10: the table of R51 row by row; each instruction of the last row is a reserved encoding. -/
theorem comboOperandResolution : Obligations.ComboOperandResolution := by
  intro s
  have hlit {x : Cell} (hx : x < 4) := combo_comboOfCell_of_lt hx s
  refine ⟨hlit (by decide), hlit (by decide), hlit (by decide), hlit (by decide),
    combo_reg .a s, combo_reg .b s, combo_reg .c s, combo_reserved s, fun f hf => ?_⟩
  have hreserved : (f (comboOfCell 7)).wellFormed = false := by
    simp only [List.mem_cons, List.not_mem_nil, or_false] at hf
    rcases hf with rfl | rfl | rfl | rfl | rfl <;> rfl
  exact ⟨_, exec_of_not_wellFormed hreserved s, raiseIn_status .., raiseIn_faultCode ..⟩

end Sys2Proof.Machine
end

section
/-!
How a cycle ends, in STATUS and in ip (R63, R69): a halt stands at or past N, and an executed instruction faults in
place, jumps as a taken JNZ does, or advances by 2.
-/
namespace Sys2Proof.Machine

theorem fetch_of_length_le {s : State} (h : s.program.length ≤ s.ip) : fetch s = .pastEnd := by
  simp only [fetch, memRead_eq_none.2 h]

/-- The halt test of R63, as an equation of the step. -/
theorem step_of_length_le {s : State} (hs : s.status = .running) (h : s.program.length ≤ s.ip) :
    step s = .next (halt s) := by
  simp only [step, cycle, hs, runningCycle, fetch_of_length_le h]

/-- What an executed instruction does to STATUS and ip: it faults and keeps ip, or it completes, keeps STATUS and moves
ip by its control result (R69, R95). -/
theorem exec_status_ip {i : Instr} {s t : State} (h : exec i s = .next t) :
    (t.status = .faulted ∧ t.ip = s.ip) ∨
    (t.status = s.status ∧
      ((∃ x, i = .jnz x ∧ s.a ≠ 0 ∧ t.ip = x.toNat) ∨ ((∀ x, i = .jnz x → s.a = 0) ∧ t.ip = s.ip + 2))) := by
  rcases exec_cases h with ⟨_, rfl, -⟩ | ⟨_, _, _, -, -, -, ⟨rfl, rfl⟩ | ⟨rfl, rfl⟩ | ⟨rfl, rfl⟩⟩ | ⟨_, rfl, rfl⟩ |
    ⟨_, _, rfl, -, rfl⟩ | ⟨_, rfl, rfl⟩ | ⟨_, _, rfl, -, rfl⟩ | ⟨x, rfl, ha, rfl⟩ | ⟨_, rfl, ha, rfl⟩
  case inl => exact .inl ⟨raiseIn_status .., raiseIn_ip ..⟩
  -- JNZ taken
  case inr.inr.inr.inr.inr.inr.inl => exact .inr ⟨retire_status .., .inl ⟨x, rfl, ha, toNat_literal x⟩⟩
  -- JNZ not taken
  case inr.inr.inr.inr.inr.inr.inr => exact .inr ⟨retire_status .., .inr ⟨fun _ _ => ha, retire_advance_ip s⟩⟩
  -- every other instruction that completes advances
  all_goals exact .inr ⟨by simp, .inr ⟨by simp, by simp⟩⟩

/-- Settles O32: the halt test answers at or past N, and neither a fault nor an executed instruction ends HALTED. -/
theorem haltTestAtTheStartOfACycle : Obligations.HaltTestAtTheStartOfACycle := by
  refine ⟨fun s => step_of_length_le, fun s t h ht => ?_⟩
  obtain ⟨hs, ⟨hlen, -, -⟩ | ⟨_, -, -, -, rfl⟩ | ⟨i, -, -, hexec⟩⟩ := step_cases h
  · exact ⟨hs, hlen⟩
  · simp at ht
  · obtain ⟨hfault, -⟩ | ⟨hkeep, -⟩ := exec_status_ip hexec
    · simp [hfault] at ht
    · simp [hkeep, hs] at ht

/-- Settles O35: a cycle that fetches both cells has ip + 2 ≤ N, and a literal operand is a u3 value. -/
theorem ipAdvancesByTwoOrJumps : Obligations.IpAdvancesByTwoOrJumps := by
  intro s t h
  obtain ⟨hs, ⟨-, -, rfl⟩ | ⟨_, -, -, -, rfl⟩ | ⟨i, hlen, hi, hexec⟩⟩ := step_cases h
  · exact ⟨by simp, fun _ => halt_ip s⟩
  · exact ⟨by simp, fun _ => raise_ip ..⟩
  · obtain ⟨hfault, hip⟩ | ⟨hkeep, hmove⟩ := exec_status_ip hexec
    · exact ⟨by simp [hfault], fun _ => hip⟩
    · refine ⟨fun _ => ⟨i, hi, ?_⟩, fun hne => absurd (hkeep.trans hs) hne⟩
      obtain ⟨x, hx, ha, hip⟩ | ⟨hjnz, hip⟩ := hmove
      · have hu3 : x.toNat < 8 := x.isLt
        exact .inl ⟨x, hx, ha, hip, by omega⟩
      · exact .inr ⟨hjnz, hip, by omega⟩

end Sys2Proof.Machine
end

section
/-!
The Program and the host commands: no cycle writes the Program (R111), START replaces the whole state (R108) and ABORT
leaves it (R117).
-/
namespace Sys2Proof.Machine

@[simp] theorem hostCommand_start (prog : Memory) (a b c : Word) (s : State) :
    hostCommand (.start prog a b c) s = start prog a b c := rfl

@[simp] theorem hostCommand_abort (s : State) : hostCommand .abort s = s := rfl

/-- No cycle writes the Program, whether it halts, misses its operand cell or executes an instruction (R45). -/
theorem step_program {s t : State} (h : step s = .next t) : t.program = s.program := by
  obtain ⟨-, ⟨-, -, rfl⟩ | ⟨_, -, -, -, rfl⟩ | ⟨_, -, -, hexec⟩⟩ := step_cases h
  · exact halt_program s
  · exact raise_program ..
  · exact exec_program hexec

@[simp] theorem runCycles_program (k : Nat) (s : State) : (runCycles k s).program = s.program :=
  runCycles_induction (P := fun t => t.program = s.program) (fun _ _ hkeep hstep => (step_program hstep).trans hkeep)
    k s rfl

/-- Settles O42: the cycles of a run keep the Program that START loaded, and ABORT leaves the whole state. -/
theorem programStaysWhatStartLoaded : Obligations.ProgramStaysWhatStartLoaded := by
  refine ⟨fun k prog a b c => ?_, fun s => ?_⟩
  · rw [runCycles_program, start_program]
  · rw [hostCommand_abort]

/-- Settles O44: the old state does not occur in the state that START leaves. -/
theorem startKeepsNothingOfTheLastRun : Obligations.StartKeepsNothingOfTheLastRun := by
  intro prog a b c s s'
  rw [hostCommand_start, hostCommand_start]
  exact ⟨rfl, start_output .., start_ip ..⟩

end Sys2Proof.Machine
end

section
/-!
The encoding: an instruction and its two cells determine each other, exactly the integers 0 to 7 are cells (R56), and a
6-bit table word is its two cells side by side (R48).
-/
namespace Sys2Proof

/-- Settles O1: the two cells of an instruction are those that decode to it. -/
theorem decodeOfEncodeIsTheInstruction : Obligations.DecodeOfEncodeIsTheInstruction :=
  fun i rest => decode_eq_ok.2 ⟨i.opcodeCell, i.operandCell, rest, rfl, (decodePair_cells i).symm⟩

/-- Settles O2: what decodes starts with two cells, and the instruction they make has them as its own. -/
theorem encodeOfDecodeIsTheCells : Obligations.EncodeOfDecodeIsTheCells := by
  intro cells i h
  obtain ⟨op, x, rest, rfl, rfl⟩ := decode_eq_ok.1 h
  simp [encode]

/-- Settles O3: each opcode's arm of the pair that the cells decode to. -/
theorem opcodeAloneSelectsTheInstruction : Obligations.OpcodeAloneSelectsTheInstruction := by
  intro x
  have hdecode (op : Cell) := decode_cells op x []
  exact ⟨hdecode 0, hdecode 1, hdecode 2, hdecode 3, hdecode 4, hdecode 5, hdecode 6, hdecode 7⟩

/-- Exactly the integers 0 to 7 are cells (R30, R56). -/
theorem exists_eq_intOfCell {v : Int} : (∃ x, v = intOfCell x) ↔ 0 ≤ v ∧ v ≤ 7 := by
  constructor
  · rintro ⟨x, rfl⟩
    have := x.isLt
    unfold intOfCell
    omega
  · intro hv
    cases hx : cellOfInt v with
    | none => have := cellOfInt_eq_none.1 hx; omega
    | some x => exact ⟨x, cellOfInt_eq_some.1 hx⟩

/-- Settles O7: a pair decodes where both integers are cells. -/
theorem onlyCellsDecode : Obligations.OnlyCellsDecode := by
  intro op x
  rw [← exists_eq_intOfCell, ← exists_eq_intOfCell]
  constructor
  · rintro ⟨i, h⟩
    obtain ⟨o, y, rest, hcells, -⟩ := decode_eq_ok.1 h
    obtain ⟨rfl, rfl, -⟩ : op = intOfCell o ∧ x = intOfCell y ∧ [] = rest := by simpa using hcells
    exact ⟨⟨o, rfl⟩, y, rfl⟩
  · rintro ⟨⟨o, rfl⟩, y, rfl⟩
    exact ⟨_, decode_cells o y []⟩

/-! ### The 6-bit view of R48 -/

/-- The table word of an opcode cell and an operand cell (R48). -/
def tableWord (op x : Cell) : Nat := op.toNat * 8 + x.toNat

theorem encodeTableWord_decodePair (op x : Cell) : encodeTableWord (decodePair op x) = tableWord op x := by
  simp only [encodeTableWord, tableWord, opcodeCell_decodePair, operandCell_decodePair]

/-- Every 6-bit word is two cells. -/
theorem exists_tableWord_eq {w : Nat} (hw : w < 64) : ∃ op x, tableWord op x = w := by
  refine ⟨BitVec.ofNat 3 (w / 8), BitVec.ofNat 3 w, ?_⟩
  simp only [tableWord, BitVec.toNat_ofNat]
  omega

theorem opcodeField_tableWord (op x : Cell) : opcodeField 8 (tableWord op x) = intOfCell op := by
  have := op.isLt
  have := x.isLt
  simp only [opcodeField, tableWord, intOfCell]
  omega

theorem operandField_tableWord (op x : Cell) : operandField 8 (tableWord op x) = intOfCell x := by
  have := op.isLt
  have := x.isLt
  simp only [operandField, tableWord, intOfCell]
  omega

theorem decodeTableWord_tableWord (op x : Cell) : decodeTableWord 8 (tableWord op x) = some (decodePair op x) := by
  simp only [decodeTableWord, opcodeField_tableWord, operandField_tableWord, decode_cells]

/-- Settles O8: each word is the table word of the two cells it is written from. -/
theorem tableWordsDecodeToTheirInstructions : Obligations.TableWordsDecodeToTheirInstructions :=
  have hdecode := decodeTableWord_tableWord
  ⟨hdecode 0 1, hdecode 1 7, hdecode 2 6, hdecode 3 0, hdecode 4 0, hdecode 5 4, hdecode 6 3, hdecode 7 7⟩

end Sys2Proof
end

section
/-!
The shared arithmetic over the integers: the exact quotient of DivPow2 (R77, R78), mod8 as a remainder (R70), and the
sign of XOR (R71).
-/
namespace Sys2Proof.Machine

/-! ### Division by a power of two -/

/-- A truncated quotient by a positive divisor lies between the dividend and 0. -/
theorem tdiv_between (a : Int) {d : Int} (hd : 0 < d) :
    (0 ≤ a → 0 ≤ a.tdiv d ∧ a.tdiv d ≤ a) ∧ (a ≤ 0 → a ≤ a.tdiv d ∧ a.tdiv d ≤ 0) := by
  refine ⟨fun ha => ⟨Int.tdiv_nonneg ha hd.le, Int.tdiv_le_self d ha⟩, fun ha => ?_⟩
  have hneg : 0 ≤ -a := by omega
  have hnonneg := Int.tdiv_nonneg hneg hd.le
  have hle := Int.tdiv_le_self d hneg
  rw [Int.neg_tdiv] at hnonneg hle
  omega

theorem tdiv_eq_zero_of_lt {a d : Int} (hneg : -d < a) (hpos : a < d) : a.tdiv d = 0 := by
  rcases le_total 0 a with ha | ha
  · exact Int.tdiv_eq_zero_of_lt ha hpos
  · have hzero : (-a).tdiv d = 0 := Int.tdiv_eq_zero_of_lt (by omega) (by omega)
    rw [Int.neg_tdiv] at hzero
    omega

/-- An s64 value as an integer (R8). -/
theorem word_bounds (v : Word) : -(2 ^ 63) ≤ v.toInt ∧ v.toInt < 2 ^ 63 :=
  ⟨BitVec.le_toInt v, BitVec.toInt_lt⟩

/-- The quotient of a register by a positive divisor is a register value: it never overflows. -/
theorem toInt_ofInt_tdiv (a : Word) {d : Int} (hd : 0 < d) :
    (BitVec.ofInt 64 (a.toInt.tdiv d)).toInt = a.toInt.tdiv d := by
  have hbounds := word_bounds a
  have hbetween := tdiv_between a.toInt hd
  rw [BitVec.toInt_ofInt]
  apply Int.bmod_eq_of_le <;> omega

theorem toNat_toInt_of_nonneg {e : Word} (he : 0 ≤ e.toInt) : e.toInt.toNat = e.toNat := by
  have := toNat_of_nonneg he
  omega

/-- No register reaches 2^64 (R78). -/
theorem tdiv_two_pow_eq_zero (a : Word) {n : Nat} (hn : 64 ≤ n) : a.toInt.tdiv (2 ^ n) = 0 := by
  have hpow : (2 : Int) ^ 64 ≤ 2 ^ n := pow_le_pow_right₀ (by decide) hn
  have hbounds := word_bounds a
  exact tdiv_eq_zero_of_lt (by omega) (by omega)

/-- The quotient as R78 states it, for every exponent that is not negative: from 64 on the exact quotient is 0. -/
theorem divPow2_eq {a e : Word} (he : 0 ≤ e.toInt) :
    divPow2 a e = some (BitVec.ofInt 64 (a.toInt.tdiv (2 ^ e.toInt.toNat))) := by
  rw [divPow2_nonneg he, toNat_toInt_of_nonneg he]
  split
  · rw [tdiv_two_pow_eq_zero a ‹64 ≤ e.toNat›]
    rfl
  · simp only [truncDiv, Nat.cast_pow, Nat.cast_ofNat]

theorem divPow2_eq_none {a e : Word} : divPow2 a e = none ↔ e.toInt < 0 := by
  refine ⟨fun h => not_le.1 fun he => ?_, divPow2_negative⟩
  rw [divPow2_eq he] at h
  cases h

theorem divPow2_toInt {a e q : Word} (h : divPow2 a e = some q) : q.toInt = a.toInt.tdiv (2 ^ e.toInt.toNat) := by
  have he : 0 ≤ e.toInt := not_lt.1 fun hneg => by
    rw [divPow2_negative hneg] at h
    cases h
  rw [divPow2_eq he] at h
  obtain rfl := Option.some.inj h
  exact toInt_ofInt_tdiv a (by positivity)

/-- Settles O11: the quotient fits a register, so its integer is the exact quotient and lies where that lies. -/
theorem powerOfTwoQuotientIsExact : Obligations.PowerOfTwoQuotientIsExact := by
  refine fun a e => ⟨divPow2_eq_none, fun q hq => ?_⟩
  rw [divPow2_toInt hq]
  exact ⟨rfl, tdiv_between a.toInt (by positivity)⟩

/-- Settles O12: the divisor is 1, more than every dividend, or 2^63, which one dividend reaches. -/
theorem quotientAtTheCornerExponents : Obligations.QuotientAtTheCornerExponents := by
  intro a e
  refine ⟨?_, fun he => ?_, ?_⟩
  · rintro rfl
    rw [divPow2_eq (by decide)]
    simp
  · rw [divPow2_eq (by omega), tdiv_two_pow_eq_zero a (by omega)]
    rfl
  · rintro rfl
    have hexp : (63 : Word).toInt.toNat = 63 := by decide
    rw [divPow2_eq (by decide), hexp]
    split
    · rename_i ha
      rw [ha]
      rfl
    · have hbounds := word_bounds a
      rw [tdiv_eq_zero_of_lt (by omega) (by omega)]
      rfl

/-- Settles O13: on a dividend that is not negative, truncation and the shift's floor agree (R77). -/
theorem shiftEqualsDivisionOfNonNegativeDividend : Obligations.ShiftEqualsDivisionOfNonNegativeDividend := by
  intro a e ha he
  have hshift : (a.sshiftRight e.toNat).toInt = a.toInt.tdiv (2 ^ e.toNat) := by
    rw [BitVec.toInt_sshiftRight, Int.shiftRight_eq_div_pow, Int.tdiv_eq_ediv_of_nonneg ha]
    norm_cast
  rw [divPow2_eq he, toNat_toInt_of_nonneg he, ← hshift, BitVec.ofInt_toInt]

/-! ### mod8 -/

/-- Bits 2 to 0 of the pattern are the non-negative remainder by 8, for a negative value too (R70). -/
theorem toNat_mod8 (v : Word) : ((mod8 v).toNat : Int) = v.toInt % 8 := by
  have hbits : (mod8 v).toNat = v.toNat % 8 := BitVec.toNat_setWidth 3 v
  rw [hbits, BitVec.toInt_eq_toNat_cond]
  split <;> omega

theorem mod8_eq_ofInt (v : Word) : mod8 v = BitVec.ofInt 3 (v.toInt % 8) := by
  rw [← toNat_mod8, BitVec.ofInt_natCast, BitVec.ofNat_toNat, BitVec.setWidth_eq]

theorem zext64_mod8 (v : Word) : zext64 (mod8 v) = BitVec.ofInt 64 (v.toInt % 8) := by
  rw [← toNat_mod8, BitVec.ofInt_natCast, BitVec.ofNat_toNat, zext64]

/-- Settles O14: the truncating remainder lies above -8, so adding 8 makes it the non-negative one. -/
theorem modEightIsTheRecommendedFormula : Obligations.ModEightIsTheRecommendedFormula := by
  intro v
  rw [toNat_mod8]
  have hlow : -8 < v.toInt.tmod 8 := Int.lt_tmod_of_pos _ (by decide)
  have hcongr : v.toInt.tmod 8 + 8 * v.toInt.tdiv 8 = v.toInt := Int.tmod_add_mul_tdiv _ _
  have hnonneg : (v.toInt.tmod 8 + 8).tmod 8 = (v.toInt.tmod 8 + 8) % 8 := Int.tmod_eq_emod_of_nonneg (by omega)
  omega

/-! ### XOR -/

theorem toInt_neg_iff_msb {v : Word} : v.toInt < 0 ↔ v.msb = true := by
  simp [BitVec.msb_eq_toInt]

theorem toInt_nonneg_iff_msb {v : Word} : 0 ≤ v.toInt ↔ v.msb = false := by
  simp [BitVec.msb_eq_toInt]

theorem xorWords_neg (a b : Word) :
    (xorWords a b).toInt < 0 ↔ (a.toInt < 0 ∧ 0 ≤ b.toInt) ∨ (0 ≤ a.toInt ∧ b.toInt < 0) := by
  simp only [toInt_neg_iff_msb, toInt_nonneg_iff_msb, xorWords, BitVec.msb_xor]
  cases a.msb <;> cases b.msb <;> decide

/-- Settles O15: bit by bit, and the sign is the top bit. -/
theorem xorIsBitwiseAndItsSignFollows : Obligations.XorIsBitwiseAndItsSignFollows :=
  fun a b => ⟨fun _ => BitVec.getLsbD_xor, xorWords_neg a b⟩

end Sys2Proof.Machine
end

section
/-!
What each instruction answers where it completes and where it raises a fault, as equations of `exec` (R79 to R87, R91,
R92).
-/
namespace Sys2Proof.Machine

/-! ### The divisions -/

section division
variable {x : Combo} {s : State} {e : Word}

/-- A division whose exponent resolves and is not negative puts the exact quotient into its register (R78). -/
theorem divideInto_of_nonneg (dst : Reg) (i : Instr) (hx : combo x s = some e) (he : 0 ≤ e.toInt) :
    divideInto dst i x s =
      .next (retire .advance (writeReg dst (BitVec.ofInt 64 (s.a.toInt.tdiv (2 ^ e.toInt.toNat))) s)) := by
  simp only [divideInto, withCombo_some hx, divPow2_eq he]

/-- A division whose exponent resolves and is negative raises ArithmeticAnomaly (R92). -/
theorem divideInto_of_neg (dst : Reg) (i : Instr) (hx : combo x s = some e) (he : e.toInt < 0) :
    divideInto dst i x s = .next (raiseIn i .arithmeticAnomaly s) := by
  simp only [divideInto, withCombo_some hx, divPow2_negative he]

/-- ADV, BDV and CDV are divisions, so a negative exponent raises ArithmeticAnomaly in each (R92). -/
theorem exec_division_of_neg {i : Instr} (hi : i = .adv x ∨ i = .bdv x ∨ i = .cdv x) (hx : combo x s = some e)
    (he : e.toInt < 0) : exec i s = .next (raiseIn i .arithmeticAnomaly s) := by
  rcases hi with rfl | rfl | rfl <;> exact divideInto_of_neg _ _ hx he

end division

/-- Settles O16: the quotient, into A. -/
theorem advDividesAIntoA : Obligations.AdvDividesAIntoA :=
  fun x _ _ hx he => divideInto_of_nonneg .a (.adv x) hx he

/-- Settles O17: the quotient, into B. -/
theorem bdvDividesAIntoB : Obligations.BdvDividesAIntoB :=
  fun x _ _ hx he => divideInto_of_nonneg .b (.bdv x) hx he

/-- Settles O18: the quotient, into C. -/
theorem cdvDividesAIntoC : Obligations.CdvDividesAIntoC :=
  fun x _ _ hx he => divideInto_of_nonneg .c (.cdv x) hx he

/-- Settles O26: a negative exponent comes from a register, whose operand cell the record takes. -/
theorem negativeExponentRaises : Obligations.NegativeExponentRaises := by
  intro x s e hx he
  obtain ⟨r, rfl, -⟩ := combo_negative hx he
  refine ⟨r, rfl, fun p hp => ?_⟩
  simp only [List.mem_cons, List.not_mem_nil, or_false] at hp
  obtain ⟨hi, hop, hcell⟩ : (p.1 = .adv (.reg r) ∨ p.1 = .bdv (.reg r) ∨ p.1 = .cdv (.reg r)) ∧
      p.1.opcodeCell = p.2 ∧ p.1.operandCell = (Combo.reg r).cell := by
    rcases hp with rfl | rfl | rfl <;> simp [Instr.opcodeCell, Instr.operandCell]
  rw [exec_division_of_neg hi hx he, raiseIn, raise, hop, hcell]
  cases r <;> rfl

/-- Settles O25: each of the five is a reserved encoding, and its cells are the ones recorded. -/
theorem reservedComboOperandRaises : Obligations.ReservedComboOperandRaises := by
  intro s p hp
  simp only [List.mem_cons, List.not_mem_nil, or_false] at hp
  obtain ⟨hreserved, hop, hcell⟩ :
      p.1.wellFormed = false ∧ p.1.opcodeCell = p.2 ∧ p.1.operandCell = 7 := by
    rcases hp with rfl | rfl | rfl | rfl | rfl <;> exact ⟨rfl, rfl, rfl⟩
  rw [exec_of_not_wellFormed hreserved, raiseIn, raise, hop, hcell]

/-! ### The other instructions -/

/-- Settles O19: a literal is not negative, so the sign of B decides that of the result. -/
theorem bxlXorsTheLiteralIntoB : Obligations.BxlXorsTheLiteralIntoB := by
  refine fun x s => ⟨_, rfl, rfl, ?_⟩
  have hliteral : 0 ≤ (literal x).toInt := by
    rw [toInt_literal]
    positivity
  rw [retire_b, writeReg_b_b, xorWords_neg]
  omega

/-- Settles O20: the digit of R70, zero-extended into B. -/
theorem bstStoresModEightInB : Obligations.BstStoresModEightInB := by
  intro x s v hx
  have hexec : exec (.bst x) s = .next (retire .advance (writeReg .b (zext64 (mod8 v)) s)) := withCombo_some hx
  rw [hexec, zext64_mod8]
  rfl

/-- OUT where its operand resolves (R87). -/
theorem exec_out_some {x : Combo} {s : State} {v : Word} (hx : combo x s = some v) :
    exec (.out x) s = .next (retire .advance (emit (mod8 v) s)) := withCombo_some hx

/-- Settles O24: the digit of R70, at the end of Output. -/
theorem outAppendsModEight : Obligations.OutAppendsModEight := by
  intro x s v hx
  rw [exec_out_some hx, mod8_eq_ofInt]
  rfl

theorem toInt_eq_zero {v : Word} : v.toInt = 0 ↔ v = 0 := BitVec.toInt_inj (y := 0)

/-- Settles O21: the target is the literal, which is the operand cell's value. -/
theorem jnzTakenSetsIpToTheLiteral : Obligations.JnzTakenSetsIpToTheLiteral := by
  intro x s ha
  rw [exec_jnz_taken x (toInt_eq_zero.not.1 ha), toNat_literal]
  rfl

/-- JNZ where A is 0 (R85). -/
theorem exec_jnz_not_taken (x : Cell) {s : State} (ha : s.a = 0) : exec (.jnz x) s = .next (retire .advance s) := by
  have hzero : ¬ isNonZero s.a = true := fun h => isNonZero_iff.1 h ha
  exact congrArg Host.Outcome.next (if_neg hzero)

/-- Settles O22: the condition on the integer of A is the one on its pattern. -/
theorem jnzNotTakenAdvances : Obligations.JnzNotTakenAdvances :=
  fun x _ ha => exec_jnz_not_taken x (toInt_eq_zero.1 ha)

/-- Settles O23: the operand cell does not occur in what BXC does. -/
theorem bxcXorsCIntoB : Obligations.BxcXorsCIntoB := fun _ _ => rfl

/-! ### No instruction stops the model -/

theorem withCombo_answers (i : Instr) (x : Combo) (s : State) (effect : Word → State) :
    ∃ t, withCombo i x s effect = .next t := by
  cases hx : combo x s with
  | none =>
    obtain rfl := combo_eq_none.1 hx
    exact ⟨_, withCombo_reserved ..⟩
  | some v => exact ⟨_, withCombo_some hx⟩

/-- Settles O29: combo mode answers whether its operand resolves or not, and the three others answer at once. -/
theorem everyInstructionAnswersNext : Obligations.EveryInstructionAnswersNext := by
  intro i s
  cases i with
  | adv x | bdv x | cdv x | bst x | out x => exact withCombo_answers ..
  | bxl x | jnz x | bxc x => exact ⟨_, rfl⟩

end Sys2Proof.Machine
end

section
/-!
START and the reads of program memory: a read is defined exactly below N (R31), and START gives every state item its value
by whether the program is valid (R28, R90).
-/
namespace Sys2Proof.Machine

/-- Settles O39: reads stay below N, and a cell read is one of the list's. -/
theorem programCellsAreReadBelowN : Obligations.ProgramCellsAreReadBelowN := by
  intro m k
  refine ⟨⟨fun ⟨_, hv⟩ => memRead_lt hv, fun hk => ?_⟩, fun hm v hv => ?_⟩
  · exact ⟨m[k], List.getElem?_eq_getElem hk⟩
  · exact Memory.wf_iff.1 hm v (List.mem_of_getElem? hv)

theorem start_of_valid {prog : Memory} (h : validProgram prog = true) (a b c : Word) :
    start prog a b c = State.mk a b c 0 .running .noFault none none none [] prog := by
  simp only [start, h, if_true]

theorem start_of_malformed {prog : Memory} (h : validProgram prog = false) (a b c : Word) :
    start prog a b c = State.mk a b c 0 .faulted .malformedProgram none none none [] prog := by
  simp [start, h]

/-- The programs that START refuses, in the words of R90. -/
theorem validProgram_eq_false {m : Memory} :
    validProgram m = false ↔ m.length = 0 ∨ m.length % 2 = 1 ∨ ∃ v ∈ m, v < 0 ∨ 7 < v := by
  rw [← Bool.not_eq_true, validProgram_iff]
  simp only [not_and_or, not_forall, not_le, ne_eq, not_not, exists_prop, Nat.mod_two_ne_zero]

/-- Settles O43: the two clauses are the two answers of START's check. -/
theorem startSetsEveryStateItem : Obligations.StartSetsEveryStateItem :=
  fun _ a b c => ⟨fun h => start_of_valid (validProgram_iff.2 h) a b c,
    fun h => start_of_malformed (validProgram_eq_false.2 h) a b c⟩

/-- Settles O45: the empty program is malformed. -/
theorem resetIsStartWithNothingLoaded : Obligations.ResetIsStartWithNothingLoaded :=
  (start_of_malformed (validProgram_eq_false.2 (.inl rfl)) 0 0 0).symm

end Sys2Proof.Machine
end

section
/-!
A cycle: which of the checks of R94 it meets first, what its fault records and keeps (R95), and which run state it ends in
(R61).
-/
namespace Sys2Proof.Machine

open Sys2Proof.Safety

/-! ### The fetch and the step, an equation per case -/

section fetch
variable {s : State}

theorem fetch_of_reads {op x : Int} (hop : memRead s.program s.ip = some op)
    (hx : memRead s.program (s.ip + 1) = some x) : fetch s = .pair op x := by
  simp only [fetch, hop, hx]

theorem fetch_of_last_cell {op : Int} (hlast : s.ip + 1 = s.program.length)
    (hop : memRead s.program s.ip = some op) : fetch s = .noOperand op := by
  simp only [fetch, hop, memRead_eq_none.2 hlast.ge]

theorem step_of_fetch_pair {op x : Int} {i : Instr} (hs : s.status = .running) (hfetch : fetch s = .pair op x)
    (hi : decode [op, x] = .ok i) : step s = exec i s := by
  simp only [step, cycle, hs, runningCycle, hfetch, hi]

theorem step_of_fetch_noOperand {op : Cell} (hs : s.status = .running) (hfetch : fetch s = .noOperand (intOfCell op)) :
    step s = .next (raise .operandFetchOutOfRange (some op) none s) := by
  simp only [step, cycle, hs, runningCycle, hfetch, cellOfInt_intOfCell]

end fetch

/-- Settles O31: the two reads are the fetch, and the decoded instruction is what the cycle executes. -/
theorem stepRunsTheDecodedInstruction : Obligations.StepRunsTheDecodedInstruction :=
  fun _ _ _ _ hs hop hx hi => step_of_fetch_pair hs (fetch_of_reads hop hx) hi

/-- Settles O33: no operand cell follows the last cell. -/
theorem missingOperandCellRaises : Obligations.MissingOperandCellRaises :=
  fun _ _ hs hlast hop => step_of_fetch_noOperand hs (fetch_of_last_cell hlast hop)

/-- Settles O34: the cycle goes by STATUS first, and what answers a next state was RUNNING. -/
theorem noCycleOnceTheRunHasEnded : Obligations.NoCycleOnceTheRunHasEnded := by
  refine fun s => ⟨fun hs => ?_, fun hs => ?_, fun ⟨t, h⟩ => (step_cases h).1⟩
  · simp only [step, cycle, hs]
  · simp only [step, cycle, hs]

/-- A placed pair that decodes is what the next cycle executes (log 3). -/
theorem step_placePair {op x : Int} {i : Instr} (hi : decode [op, x] = .ok i) (s : State) :
    step (placePair op x s) = exec i (placePair op x s) :=
  step_of_fetch_pair rfl (placePair_fetch op x s) hi

/-- Settles O47: a 6-bit word is the table word of two cells, and placing it places them. -/
theorem placedTableWordRunsNext : Obligations.PlacedTableWordRunsNext := by
  intro s w hw
  obtain ⟨op, x, rfl⟩ := exists_tableWord_eq hw
  refine ⟨decodePair op x, decodeTableWord_tableWord op x, encodeTableWord_decodePair op x, ?_, rfl, rfl, rfl, rfl, rfl⟩
  refine step_placePair ?_ s
  rw [opcodeField_tableWord, operandField_tableWord]
  exact decode_cells op x []

/-! ### STATUS and the fault record under an instruction -/

/-- STATUS and the fault record are the same in two states (R23, R24). -/
structure SameRecord (s t : State) : Prop where
  status : t.status = s.status
  faultCode : t.faultCode = s.faultCode
  faultIp : t.faultIp = s.faultIp
  faultOpcode : t.faultOpcode = s.faultOpcode
  faultOperand : t.faultOperand = s.faultOperand

/-- An instruction raises InvalidComboOperand or ArithmeticAnomaly, each for its cause, or it completes and leaves STATUS
and the record (R91, R92, R95). -/
theorem exec_raises_or_completes {i : Instr} {s t : State} (h : exec i s = .next t) :
    (i.wellFormed = false ∧ t = raiseIn i .invalidComboOperand s) ∨
    (t = raiseIn i .arithmeticAnomaly s ∧
      ∃ x e, (i = .adv x ∨ i = .bdv x ∨ i = .cdv x) ∧ combo x s = some e ∧ e.toInt < 0) ∨
    SameRecord s t := by
  rcases exec_cases h with ⟨_, rfl, ⟨hi, rfl⟩ | ⟨rfl, hneg⟩⟩ | ⟨_, _, _, -, -, -, ⟨-, rfl⟩ | ⟨-, rfl⟩ | ⟨-, rfl⟩⟩ |
    ⟨_, -, rfl⟩ | ⟨_, _, -, -, rfl⟩ | ⟨_, -, rfl⟩ | ⟨_, _, -, -, rfl⟩ | ⟨_, -, -, rfl⟩ | ⟨_, -, -, rfl⟩
  case inl.inl => exact .inl ⟨hi, rfl⟩
  case inl.inr => exact .inr (.inl ⟨rfl, hneg⟩)
  -- a register write, an emission and a control result each leave STATUS and the record
  all_goals exact .inr (.inr ⟨by simp, by simp, by simp, by simp, by simp⟩)

/-- Settles O37: the registers by the table of R16, Output by what emits, and the record by whether a fault was raised. -/
theorem frameOfEveryInstruction : Obligations.FrameOfEveryInstruction := by
  intro i s t h
  have hkeep (r : Reg) := exec_keeps_unwritten (r := r) h
  refine ⟨fun k => by rw [exec_program h], fun _ => hkeep .a ?_, fun _ _ _ _ => hkeep .b ?_, fun _ => hkeep .c ?_,
    fun hout => ?_, ?_⟩
  · cases i <;> simp_all
  · cases i <;> simp_all
  · cases i <;> simp_all
  · obtain hsame | ⟨x, _, rfl, -⟩ := exec_output h
    · exact hsame
    · exact absurd rfl (hout x)
  · obtain ⟨-, rfl⟩ | ⟨rfl, -⟩ | hsame := exec_raises_or_completes h
    · exact .inr rfl
    · exact .inr rfl
    · exact .inl ⟨hsame.status, hsame.faultCode, hsame.faultIp, hsame.faultOpcode, hsame.faultOperand⟩

/-! ### Faults of a cycle -/

/-- A cycle that ends FAULTED is the entry of one of the three cycle faults (R95). -/
theorem step_faulted {s t : State} (h : step s = .next t) (ht : t.status = .faulted) :
    s.status = .running ∧ ∃ code op x, t = raise code op x s ∧
      (code = .operandFetchOutOfRange ∨ code = .invalidComboOperand ∨ code = .arithmeticAnomaly) := by
  obtain ⟨hs, ⟨-, -, rfl⟩ | ⟨_, -, -, -, rfl⟩ | ⟨i, -, -, hexec⟩⟩ := step_cases h
  · simp at ht
  · exact ⟨hs, _, _, _, rfl, .inl rfl⟩
  · obtain ⟨-, rfl⟩ | ⟨rfl, -⟩ | hsame := exec_raises_or_completes hexec
    · exact ⟨hs, _, _, _, rfl, .inr (.inl rfl)⟩
    · exact ⟨hs, _, _, _, rfl, .inr (.inr rfl)⟩
    · simp [hsame.status, hs] at ht

/-- Settles O27: entering a fault changes STATUS and the record only, and the record takes the cycle's ip. -/
theorem faultingCycleChangesNothingElse : Obligations.FaultingCycleChangesNothingElse := by
  intro s t h ht
  obtain ⟨hs, code, op, x, rfl, hcode⟩ := step_faulted h ht
  refine ⟨hs, ?_, ?_, rfl, rfl, rfl, rfl, rfl, rfl, rfl⟩ <;> rcases hcode with rfl | rfl | rfl <;> simp

/-- Without a negative register no exponent is negative (R92). -/
theorem combo_nonneg {x : Combo} {s : State} {e : Word} (hs : NonNegative s) (hx : combo x s = some e) :
    0 ≤ e.toInt := by
  obtain ⟨ha, hb, hc⟩ := hs
  refine not_lt.1 fun hneg => ?_
  obtain ⟨r, -, rfl⟩ := combo_negative hx hneg
  cases r
  · exact absurd ha (not_le.2 hneg)
  · exact absurd hb (not_le.2 hneg)
  · exact absurd hc (not_le.2 hneg)

/-- Settles O30: only an instruction with a negative exponent records ArithmeticAnomaly. -/
theorem nonNegativeRegistersRaiseNoAnomaly : Obligations.NonNegativeRegistersRaiseNoAnomaly := by
  intro s t hnonneg _ hclear h
  obtain ⟨-, ⟨-, -, rfl⟩ | ⟨_, -, -, -, rfl⟩ | ⟨i, -, -, hexec⟩⟩ := step_cases h
  · simp [hclear]
  · simp
  · obtain ⟨-, rfl⟩ | ⟨-, x, e, -, hx, hneg⟩ | hsame := exec_raises_or_completes hexec
    · simp
    · exact absurd (combo_nonneg hnonneg hx) (not_le.2 hneg)
    · simp [hsame.faultCode, hclear]

/-- A RUNNING state of a run has no fault recorded (R24). -/
theorem record_clear {s : State} (hinv : RunInv s) (hs : s.status = .running) : s.faultCode = .noFault := by
  by_contra hcode
  have := hinv.record.faulted hcode
  simp [hs] at this

/-! ### The checks in order: what N leaves a cycle to do (R63, R64) -/

theorem step_halts {s t : State} (h : step s = .next t) (hlen : s.program.length ≤ s.ip) : t = halt s := by
  obtain ⟨-, ⟨-, -, rfl⟩ | ⟨_, hlast, -, -, -⟩ | ⟨i, hpair, -, -⟩⟩ := step_cases h
  · rfl
  · omega
  · omega

theorem step_misses_operand {s t : State} (h : step s = .next t) (hlen : s.ip + 1 = s.program.length) :
    ∃ op, t = raise .operandFetchOutOfRange (some op) none s := by
  obtain ⟨-, ⟨hend, -, -⟩ | ⟨op, -, -, -, rfl⟩ | ⟨i, hpair, -, -⟩⟩ := step_cases h
  · omega
  · exact ⟨op, rfl⟩
  · omega

theorem step_executes {s t : State} (h : step s = .next t) (hlen : s.ip + 1 < s.program.length) :
    ∃ i, nextInstr s = some i ∧ exec i s = .next t := by
  obtain ⟨-, ⟨hend, -, -⟩ | ⟨_, hlast, -, -, -⟩ | ⟨i, -, hi, hexec⟩⟩ := step_cases h
  · omega
  · omega
  · exact ⟨i, hi, hexec⟩

/-- Settles O28: N decides among halt, missing operand and execution, and an instruction checks its combo operand before
its exponent. -/
theorem checksOfACycleInOrder : Obligations.ChecksOfACycleInOrder := by
  intro s t hinv hs h
  have hclear := record_clear hinv hs
  refine ⟨fun hlen => ?_, fun hlen => ?_, fun hlen => ?_⟩
  · obtain rfl := step_halts h hlen
    exact ⟨halt_status s, hclear⟩
  · obtain ⟨op, rfl⟩ := step_misses_operand h hlen
    exact ⟨rfl, rfl⟩
  · obtain ⟨i, hi, hexec⟩ := step_executes h hlen
    refine ⟨i, hi, fun hreserved => ?_, fun hwf => ⟨fun ⟨x, e, hdiv, hx, hneg⟩ => ?_, fun hnonneg => ?_⟩⟩
    · rw [exec_of_not_wellFormed hreserved] at hexec
      obtain rfl := Host.Outcome.next.inj hexec
      exact ⟨rfl, rfl⟩
    · rw [exec_division_of_neg hdiv hx hneg] at hexec
      obtain rfl := Host.Outcome.next.inj hexec
      exact ⟨rfl, rfl⟩
    · obtain ⟨hreserved, -⟩ | ⟨-, x, e, hdiv, hx, hneg⟩ | hsame := exec_raises_or_completes hexec
      · simp [hwf] at hreserved
      · exact absurd (hnonneg x e hdiv hx) (not_le.2 hneg)
      · exact ⟨hsame.status.trans hs, hsame.faultCode.trans hclear⟩

/-! ### The run state after a cycle -/

theorem executesNext_of_none {s : State} (hi : nextInstr s = none) : executesNext s = false := by
  simp only [executesNext, hi]

theorem executesNext_of_exec {s t : State} {i : Instr} (hi : nextInstr s = some i) (hexec : exec i s = .next t) :
    executesNext s = decide (t.status = .running) := by
  simp only [executesNext, hi, hexec]

/-- Settles O38: of the three things a cycle can do, only execution can stay RUNNING, and it never ends HALTED. -/
theorem runStateTransitions : Obligations.RunStateTransitions := by
  intro s t h
  obtain ⟨hs, ⟨hlen, hi, rfl⟩ | ⟨_, hlast, -, hi, rfl⟩ | ⟨i, hlen, hi, hexec⟩⟩ := step_cases h
  · simp [hs, executesNext_of_none hi, hlen]
  · have hlt : s.ip < s.program.length := by omega
    simp [hs, executesNext_of_none hi, hlt]
  · have hlt : s.ip < s.program.length := by omega
    have hstatus : t.status = .faulted ∨ t.status = .running := by
      obtain ⟨hfault, -⟩ | ⟨hkeep, -⟩ := exec_status_ip hexec
      · exact .inl hfault
      · exact .inr (hkeep.trans hs)
    obtain hstatus | hstatus := hstatus
    · simp [hs, executesNext_of_exec hi hexec, hlt, hstatus]
    · simp [hs, executesNext_of_exec hi hexec, hlt, hstatus]

end Sys2Proof.Machine
end

section
/-!
What every step keeps: the invariant of a run, registers that are not negative (R18), and an even ip (R21).
-/
namespace Sys2Proof.Machine

open Sys2Proof.Safety

/-! ### The invariant of a run -/

/-- A state that records no fault meets the invariant where its program is valid and ip is in bounds. -/
theorem runInv_of_clear {s : State} (hcode : s.faultCode = .noFault) (hstatus : s.status ≠ .faulted)
    (hip : s.faultIp = none) (hopcode : s.faultOpcode = none) (hoperand : s.faultOperand = none)
    (hvalid : validProgram s.program = true) (hbound : s.ip ≤ max s.program.length 7)
    (hhalted : s.status = .halted → s.program.length ≤ s.ip) : RunInv s := by
  have hno {code : FaultCode} (hne : code ≠ .noFault) {p : Prop} (h : s.faultCode = code) : p :=
    absurd (h.symm.trans hcode) hne
  exact ⟨fun _ => hvalid, hno (by decide), hbound, hhalted,
    ⟨fun _ => ⟨hstatus, hip, hopcode, hoperand⟩, fun h => absurd hcode h, hno (by decide), hno (by decide),
      hno (by decide), hno (by decide)⟩⟩

/-- Settles O50: a valid program starts with a clear record, and a malformed one in the state of its own fault (R90). -/
theorem startMeetsTheInvariant : Obligations.StartMeetsTheInvariant := by
  intro prog a b c
  cases hprog : validProgram prog with
  | true =>
    rw [start_of_valid hprog]
    exact runInv_of_clear rfl (by simp) rfl rfl rfl hprog (by simp) (by simp)
  | false =>
    rw [start_of_malformed hprog]
    exact ⟨by simp, by simp [hprog], by simp, by simp, ⟨by simp, by simp, by simp, by simp, by simp, by simp⟩⟩

/-- Settles O49: the reset state is a START. -/
theorem resetMeetsTheInvariant : Obligations.ResetMeetsTheInvariant := by
  have hreset : State.reset = start [] 0 0 0 := resetIsStartWithNothingLoaded
  unfold Obligations.ResetMeetsTheInvariant
  rw [hreset]
  exact startMeetsTheInvariant [] 0 0 0

section step
variable {s t : State}

theorem valid_of_running (hinv : RunInv s) (hs : s.status = .running) : validProgram s.program = true :=
  hinv.valid (by simp [record_clear hinv hs])

theorem halt_runInv (hinv : RunInv s) (hs : s.status = .running) (hlen : s.program.length ≤ s.ip) :
    RunInv (halt s) := by
  have hclear := record_clear hinv hs
  have hvalid := valid_of_running hinv hs
  obtain ⟨-, hip, hopcode, hoperand⟩ := hinv.record.clear hclear
  exact runInv_of_clear hclear (by simp) hip hopcode hoperand hvalid hinv.ipBound fun _ => hlen

/-- Entering a cycle fault keeps the invariant where the record is the one that the fault's rule fills (R91 to R93). -/
theorem raise_runInv {code : FaultCode} {op x : Option Cell} (hinv : RunInv s) (hs : s.status = .running)
    (hrecord : RecordFitsFault (raise code op x s)) (hcode : code ≠ .malformedProgram) :
    RunInv (raise code op x s) :=
  have hvalid := valid_of_running hinv hs
  ⟨fun _ => hvalid, fun h => absurd h hcode, hinv.ipBound, by simp, hrecord⟩

theorem operandFetch_record (op : Cell) (hlast : s.ip + 1 = s.program.length) :
    RecordFitsFault (raise .operandFetchOutOfRange (some op) none s) :=
  ⟨by simp, by simp, by simp, by simp, by simp, by simp [hlast]⟩

/-- A reserved encoding has one of the five opcodes in combo mode (R55). -/
theorem opcodeCell_of_not_wellFormed {i : Instr} (hi : i.wellFormed = false) :
    some i.opcodeCell ∈ [some (0 : Cell), some 2, some 5, some 6, some 7] := by
  cases i with
  | adv x | bst x | out x | bdv x | cdv x => simp [Instr.opcodeCell]
  | bxl x | jnz x | bxc x => cases hi

theorem invalidCombo_record {i : Instr} (hi : i.wellFormed = false) :
    RecordFitsFault (raiseIn i .invalidComboOperand s) := by
  obtain ⟨-, hoperand⟩ := Instr.wellFormed_eq_false.1 hi
  have hopcode := opcodeCell_of_not_wellFormed hi
  exact ⟨by simp, by simp, by simp, fun _ => ⟨rfl, hopcode, congrArg some hoperand⟩, by simp, by simp⟩

theorem arithmeticAnomaly_record {i : Instr} {x : Combo} {e : Word} (hi : i = .adv x ∨ i = .bdv x ∨ i = .cdv x)
    (hx : combo x s = some e) (hneg : e.toInt < 0) : RecordFitsFault (raiseIn i .arithmeticAnomaly s) := by
  obtain ⟨r, rfl, -⟩ := combo_negative hx hneg
  have hopcode : some i.opcodeCell ∈ [some (0 : Cell), some 6, some 7] := by
    rcases hi with rfl | rfl | rfl <;> simp [Instr.opcodeCell]
  have hoperand : some i.operandCell ∈ [some (4 : Cell), some 5, some 6] := by
    rcases hi with rfl | rfl | rfl <;> cases r <;> simp [Instr.operandCell, Combo.cell]
  exact ⟨by simp, by simp, by simp, by simp, fun _ => ⟨rfl, hopcode, hoperand⟩, by simp⟩

/-- Where both cells are fetched, an instruction leaves ip within max(N, 7) (R69). -/
theorem exec_ip_le {i : Instr} (hlen : s.ip + 1 < s.program.length) (h : exec i s = .next t) :
    t.ip ≤ max s.program.length 7 := by
  obtain ⟨-, hip⟩ | ⟨-, ⟨x, -, -, hip⟩ | ⟨-, hip⟩⟩ := exec_status_ip h
  · omega
  · have := x.isLt
    omega
  · omega

theorem exec_runInv {i : Instr} (hinv : RunInv s) (hs : s.status = .running) (hlen : s.ip + 1 < s.program.length)
    (h : exec i s = .next t) : RunInv t := by
  obtain ⟨hi, rfl⟩ | ⟨rfl, x, e, hi, hx, hneg⟩ | hsame := exec_raises_or_completes h
  · exact raise_runInv hinv hs (invalidCombo_record hi) (by decide)
  · exact raise_runInv hinv hs (arithmeticAnomaly_record hi hx hneg) (by decide)
  · have hclear := record_clear hinv hs
    have hrunning : t.status = .running := hsame.status.trans hs
    obtain ⟨-, hip, hopcode, hoperand⟩ := hinv.record.clear hclear
    have hprogram := exec_program h
    refine runInv_of_clear (hsame.faultCode.trans hclear) (by simp [hrunning]) (hsame.faultIp.trans hip)
      (hsame.faultOpcode.trans hopcode) (hsame.faultOperand.trans hoperand) ?_ ?_ (by simp [hrunning])
    · exact hprogram ▸ valid_of_running hinv hs
    · exact hprogram ▸ exec_ip_le hlen h

end step

/-- Settles O48: a RUNNING state has a clear record, and each thing a cycle can do keeps it clear or fills it as its
fault's rule says. -/
theorem stepKeepsTheInvariant : Obligations.StepKeepsTheInvariant := by
  intro s t hinv h
  obtain ⟨hs, ⟨hlen, -, rfl⟩ | ⟨op, hlast, -, -, rfl⟩ | ⟨i, hlen, -, hexec⟩⟩ := step_cases h
  · exact halt_runInv hinv hs hlen
  · exact raise_runInv hinv hs (operandFetch_record op hlast) (by decide)
  · exact exec_runInv hinv hs hlen hexec

/-- Settles O51: the cells of a valid program decode, and every instruction answers a next state. -/
theorem runningStateAlwaysSteps : Obligations.RunningStateAlwaysSteps := by
  intro s hinv hs
  obtain ⟨-, -, hcells⟩ := validProgram_iff.1 (valid_of_running hinv hs)
  have hwf := Memory.wf_iff.2 hcells
  obtain ⟨-, hlen⟩ | ⟨op, hfetch, -, hop⟩ | ⟨op, x, hfetch, -, hop, hx⟩ := fetch_cases s
  · exact ⟨_, step_of_length_le hs hlen⟩
  · obtain ⟨o, -, rfl⟩ := memRead_wf hwf hop
    exact ⟨_, step_of_fetch_noOperand hs hfetch⟩
  · obtain ⟨o, -, rfl⟩ := memRead_wf hwf hop
    obtain ⟨y, -, rfl⟩ := memRead_wf hwf hx
    rw [step_of_fetch_pair hs hfetch (decode_cells o y [])]
    exact everyInstructionAnswersNext ..

/-! ### Registers that are not negative -/

section nonneg
variable {s t : State}

theorem nonNegative_iff : NonNegative s ↔ ∀ r, 0 ≤ (readReg s r).toInt :=
  ⟨fun ⟨ha, hb, hc⟩ r => by cases r <;> assumption, fun h => ⟨h .a, h .b, h .c⟩⟩

theorem nonNegative_retire (ctl : Control) : NonNegative (retire ctl s) ↔ NonNegative s := by
  simp only [nonNegative_iff, readReg_retire]

theorem nonNegative_writeReg (hs : NonNegative s) (r : Reg) {v : Word} (hv : 0 ≤ v.toInt) :
    NonNegative (writeReg r v s) := by
  refine nonNegative_iff.2 fun q => ?_
  rw [readReg_writeReg]
  split
  · exact hv
  · exact nonNegative_iff.1 hs q

theorem toInt_zext64_nonneg (x : Cell) : 0 ≤ (zext64 x).toInt := by
  rw [toInt_zext64]
  positivity

theorem xorWords_nonneg {a b : Word} (ha : 0 ≤ a.toInt) (hb : 0 ≤ b.toInt) : 0 ≤ (xorWords a b).toInt := by
  have := xorWords_neg a b
  omega

theorem divPow2_nonneg_of_nonneg {a e q : Word} (ha : 0 ≤ a.toInt) (hq : divPow2 a e = some q) : 0 ≤ q.toInt := by
  rw [divPow2_toInt hq]
  exact Int.tdiv_nonneg ha (by positivity)

/-- Every value that an instruction writes to a register is not negative where the registers are not (R18). -/
theorem exec_nonNegative {i : Instr} (hs : NonNegative s) (h : exec i s = .next t) : NonNegative t := by
  have ⟨ha, hb, hc⟩ := hs
  rcases exec_cases h with ⟨_, rfl, -⟩ | ⟨_, _, q, -, -, hq, ⟨-, rfl⟩ | ⟨-, rfl⟩ | ⟨-, rfl⟩⟩ | ⟨x, -, rfl⟩ |
    ⟨_, v, -, -, rfl⟩ | ⟨_, -, rfl⟩ | ⟨_, _, -, -, rfl⟩ | ⟨_, -, -, rfl⟩ | ⟨_, -, -, rfl⟩
  · exact hs
  -- a division writes a quotient of A
  · exact (nonNegative_retire _).2 (nonNegative_writeReg hs .a (divPow2_nonneg_of_nonneg ha hq))
  · exact (nonNegative_retire _).2 (nonNegative_writeReg hs .b (divPow2_nonneg_of_nonneg ha hq))
  · exact (nonNegative_retire _).2 (nonNegative_writeReg hs .c (divPow2_nonneg_of_nonneg ha hq))
  -- BXL, BST and BXC write an exclusive or or a digit
  · exact (nonNegative_retire _).2 (nonNegative_writeReg hs .b (xorWords_nonneg hb (toInt_zext64_nonneg x)))
  · exact (nonNegative_retire _).2 (nonNegative_writeReg hs .b (toInt_zext64_nonneg (mod8 v)))
  · exact (nonNegative_retire _).2 (nonNegative_writeReg hs .b (xorWords_nonneg hb hc))
  -- OUT and JNZ write no register
  · exact (nonNegative_retire _).2 hs
  · exact (nonNegative_retire _).2 hs
  · exact (nonNegative_retire _).2 hs

end nonneg

/-- Settles O52: a halt and a missing operand cell write no register, and what an instruction writes is not negative. -/
theorem stepKeepsRegistersNonNegative : Obligations.StepKeepsRegistersNonNegative := by
  intro s t hnonneg h
  obtain ⟨-, ⟨-, -, rfl⟩ | ⟨_, -, -, -, rfl⟩ | ⟨i, -, -, hexec⟩⟩ := step_cases h
  · exact hnonneg
  · exact hnonneg
  · exact exec_nonNegative hnonneg hexec

/-! ### An even ip -/

theorem drop_of_memRead {m : Memory} {k : Nat} {v : Int} (h : memRead m k = some v) : m.drop k = v :: m.drop (k + 1) := by
  obtain ⟨hk, rfl⟩ := List.getElem?_eq_some_iff.1 h
  exact List.drop_eq_getElem_cons hk

/-- The instruction that the next cycle executes is the one the cells from ip on start with (R47, R64). -/
theorem decode_drop_of_nextInstr {s : State} {i : Instr} (h : nextInstr s = some i) :
    decode (s.program.drop s.ip) = .ok i := by
  cases hs : s.status with
  | halted | faulted => simp [nextInstr, hs] at h
  | running =>
    obtain ⟨hfetch, -⟩ | ⟨op, hfetch, -, -⟩ | ⟨op, x, hfetch, -, hop, hx⟩ := fetch_cases s
    · simp [nextInstr, hs, hfetch] at h
    · simp [nextInstr, hs, hfetch] at h
    · rw [drop_of_memRead hop, drop_of_memRead hx]
      cases hi : decode [op, x] with
      | error e => simp [nextInstr, hs, hfetch, hi] at h
      | ok j =>
        obtain rfl : j = i := by simpa [nextInstr, hs, hfetch, hi] using h
        exact (decoderTakesExactlyTwoCells op x _).1.trans hi

/-- Settles O53: ip stays, advances by 2, or becomes the target of a jump at an even index. -/
theorem evenTargetsKeepIpEven : Obligations.EvenTargetsKeepIpEven := by
  intro s t htargets heven h
  obtain ⟨-, ⟨-, -, rfl⟩ | ⟨_, -, -, -, rfl⟩ | ⟨i, -, hi, hexec⟩⟩ := step_cases h
  · exact heven
  · exact heven
  · obtain ⟨-, hip⟩ | ⟨-, ⟨x, rfl, -, hip⟩ | ⟨-, hip⟩⟩ := exec_status_ip hexec
    · omega
    · have hindex : 2 * (s.ip / 2) = s.ip := by omega
      rw [hip]
      refine htargets (s.ip / 2) x ?_
      rw [hindex]
      exact decode_drop_of_nextInstr hi
    · omega

end Sys2Proof.Machine
end

section
/-!
Runs: what holds after any number of cycles from START, what a larger bound adds, how many cycles a run takes (R76), and
which digits it emits (R88).
-/
namespace Sys2Proof.Machine

open Sys2Proof.Safety

/-! ### Invariants of every run -/

theorem runCycles_start_runInv (k : Nat) (prog : Memory) (a b c : Word) : RunInv (runCycles k (start prog a b c)) :=
  runCycles_induction stepKeepsTheInvariant k _ (startMeetsTheInvariant prog a b c)

/-- Settles O55: the bound is a part of the invariant, and the Program is PROG. -/
theorem ipIsBoundedInEveryRun : Obligations.IpIsBoundedInEveryRun := by
  intro prog a b c k
  have hbound := (runCycles_start_runInv k prog a b c).ipBound
  rwa [runCycles_program, start_program] at hbound

/-- What a run of a program with even targets keeps: ip is even, and while the run goes on, so is N (R90). -/
structure EvenRun (s : State) : Prop where
  targets : EvenTargets s.program
  ip : s.ip % 2 = 0
  length : s.status = .running → s.program.length % 2 = 0
  code : s.faultCode ≠ .operandFetchOutOfRange

theorem start_evenRun {prog : Memory} (htargets : EvenTargets prog) (a b c : Word) : EvenRun (start prog a b c) := by
  refine ⟨htargets, rfl, fun hs => ?_, ?_⟩
  · have hvalid : validProgram prog = true := by simpa using hs
    obtain ⟨-, heven, -⟩ := validProgram_iff.1 hvalid
    exact heven
  · rw [start_faultCode]
    split <;> simp

/-- An even ip is never N - 1, so no cycle of such a run misses its operand cell (R93). -/
theorem step_evenRun {s t : State} (hrun : EvenRun s) (h : step s = .next t) : EvenRun t := by
  have hprogram := step_program h
  have hip := evenTargetsKeepIpEven s t hrun.targets hrun.ip h
  obtain ⟨hs, hcases⟩ := step_cases h
  have heven := hrun.length hs
  refine ⟨hprogram ▸ hrun.targets, hip, fun _ => hprogram ▸ heven, ?_⟩
  obtain ⟨-, -, rfl⟩ | ⟨_, hlast, -, -, -⟩ | ⟨i, -, -, hexec⟩ := hcases
  · exact hrun.code
  · have := hrun.ip
    omega
  · obtain ⟨-, rfl⟩ | ⟨rfl, -⟩ | hsame := exec_raises_or_completes hexec
    · simp
    · simp
    · exact hsame.faultCode ▸ hrun.code

/-- Settles O54: START begins such a run and every cycle keeps it one. -/
theorem evenTargetsNeverMissAnOperand : Obligations.EvenTargetsNeverMissAnOperand := by
  intro prog a b c k htargets
  exact (runCycles_induction (fun _ _ => step_evenRun) k _ (start_evenRun htargets a b c)).code

/-! ### Cycles one by one, and where they end -/

section cycles
variable {s t : State}

theorem runCycles_succ (k : Nat) (h : step s = .next t) : runCycles (k + 1) s = runCycles k t := by
  simp only [runCycles, h]

theorem cycleStarts_succ (k : Nat) (h : step s = .next t) : cycleStarts (k + 1) s = s :: cycleStarts k t := by
  simp only [cycleStarts, h]

/-- A state with no next state is where the cycles end. -/
theorem runCycles_of_no_step (hstop : ∀ t, step s ≠ .next t) (k : Nat) : runCycles k s = s := by
  cases k with
  | zero => rfl
  | succ k =>
    cases h : step s with
    | next t => exact absurd h (hstop t)
    | fault r => simp only [runCycles, h]
    | refused r => simp only [runCycles, h]

theorem cycleStarts_of_no_step (hstop : ∀ t, step s ≠ .next t) (k : Nat) : cycleStarts k s = [] := by
  cases k with
  | zero => rfl
  | succ k =>
    cases h : step s with
    | next t => exact absurd h (hstop t)
    | fault r => simp only [cycleStarts, h]
    | refused r => simp only [cycleStarts, h]

theorem no_step_of_not_running (hs : s.status ≠ .running) (t : State) : step s ≠ .next t :=
  fun h => hs (step_cases h).1

/-- A run under the bound `k + j` is one under `k`, carried on under `j`. -/
theorem runCycles_add (k j : Nat) (s : State) : runCycles (k + j) s = runCycles j (runCycles k s) := by
  induction k generalizing s with
  | zero => simp [runCycles]
  | succ k ih =>
    rw [Nat.add_right_comm]
    by_cases h : ∃ t, step s = .next t
    · obtain ⟨t, h⟩ := h
      rw [runCycles_succ _ h, runCycles_succ _ h, ih]
    · have hstop := not_exists.1 h
      simp only [runCycles_of_no_step hstop]

end cycles

/-- Settles O56: a state with a result is not RUNNING, so no further cycle is performed. -/
theorem resultDoesNotDependOnTheBound : Obligations.ResultDoesNotDependOnTheBound := by
  intro k j prog a b c r h
  have hended : (runCycles k (start prog a b c)).status ≠ .running := fun hs => by
    rw [run, result_of_running hs] at h
    cases h
  rw [run, runCycles_add, runCycles_of_no_step (no_step_of_not_running hended)]
  exact h

/-! ### The number of cycles -/

/-- From any RUNNING state of a run: the cycles that go on executed an instruction, and the last one did not (R76). -/
theorem cycleStarts_length {s : State} (k : Nat) (hinv : RunInv s) (hs : s.status = .running)
    (hended : (runCycles k s).status ≠ .running) :
    (cycleStarts k s).length = ((cycleStarts k s).filter executesNext).length + 1 := by
  induction k generalizing s with
  | zero => exact absurd hs hended
  | succ k ih =>
    obtain ⟨t, h⟩ := runningStateAlwaysSteps s hinv hs
    obtain ⟨-, hgoesOn, -⟩ := runStateTransitions s t h
    rw [runCycles_succ k h] at hended
    rw [cycleStarts_succ k h]
    by_cases ht : t.status = .running
    · have hcount := ih (stepKeepsTheInvariant s t hinv h) ht hended
      simp [hgoesOn.1 ht, hcount]
    · simp [mt hgoesOn.2 ht, cycleStarts_of_no_step (no_step_of_not_running ht)]

/-- Settles O57: a valid program starts RUNNING. -/
theorem endedRunTookOneCycleMore : Obligations.EndedRunTookOneCycleMore := by
  intro prog a b c k hvalid
  exact cycleStarts_length k (startMeetsTheInvariant prog a b c) (by simp [hvalid])

/-! ### The digits of a run -/

section digits
variable {s t : State}

theorem emitted_of_none (hi : nextInstr s = none) : emitted s = [] := by
  simp only [emitted, hi]

theorem emitted_of_not_out {i : Instr} (hi : nextInstr s = some i) (hout : ∀ x, i ≠ .out x) : emitted s = [] := by
  cases i with
  | out x => exact absurd rfl (hout x)
  | adv x | bxl x | bst x | jnz x | bxc x | bdv x | cdv x => simp only [emitted, hi]

theorem emitted_of_out_none {x : Combo} (hi : nextInstr s = some (.out x)) (hx : combo x s = none) : emitted s = [] := by
  simp only [emitted, hi, hx]

theorem emitted_of_out_some {x : Combo} {v : Word} (hi : nextInstr s = some (.out x)) (hx : combo x s = some v) :
    emitted s = [mod8 v] := by
  simp only [emitted, hi, hx]

/-- An executed instruction appends the digits that its cycle emits, and no others (R33, R87). -/
theorem exec_output_emitted {i : Instr} (hi : nextInstr s = some i) (h : exec i s = .next t) :
    t.output = s.output ++ emitted s := by
  by_cases hout : ∃ x, i = .out x
  · obtain ⟨x, rfl⟩ := hout
    cases hx : combo x s with
    | none =>
      obtain rfl := combo_eq_none.1 hx
      rw [exec_of_not_wellFormed rfl] at h
      obtain rfl := Host.Outcome.next.inj h
      simp [emitted_of_out_none hi hx]
    | some v =>
      rw [exec_out_some hx] at h
      obtain rfl := Host.Outcome.next.inj h
      simp [emitted_of_out_some hi hx]
  · have hnot := not_exists.1 hout
    obtain hkeep | ⟨x, _, hix, -⟩ := exec_output h
    · simp [emitted_of_not_out hi hnot, hkeep]
    · exact absurd hix (hnot x)

theorem step_output (h : step s = .next t) : t.output = s.output ++ emitted s := by
  obtain ⟨-, ⟨-, hi, rfl⟩ | ⟨_, -, -, hi, rfl⟩ | ⟨i, -, hi, hexec⟩⟩ := step_cases h
  · simp [emitted_of_none hi]
  · simp [emitted_of_none hi]
  · exact exec_output_emitted hi hexec

end digits

/-- Settles O41: by induction on the bound, from every state. -/
theorem outputIsInExecutionOrder : Obligations.OutputIsInExecutionOrder := by
  intro k
  induction k with
  | zero =>
    intro s
    simp [outStream, runCycles, cycleStarts]
  | succ k ih =>
    intro s
    by_cases h : ∃ t, step s = .next t
    · obtain ⟨t, h⟩ := h
      rw [runCycles_succ k h, cycleStarts_succ k h, ih, step_output h, List.flatMap_cons, List.append_assoc]
    · have hstop := not_exists.1 h
      simp [outStream, runCycles_of_no_step hstop, cycleStarts_of_no_step hstop]

end Sys2Proof.Machine
end
